-- ==== Sys2Proof/Word.lean ====
section
/-! DEFINITION. The two word types of the hardware: a byte and a 16-bit address or pair value (`00_scope.md` R7, R9). -/

namespace Sys2Proof

/-- An unsigned byte, 0..255, wrapping modulo 256 (`10_state.md` R14; log entry 2). -/
abbrev Byte := BitVec 8

/-- A word: an address, `pc`, `sp` or the value of a register pair, 0..65535 (`00_scope.md` R7, R9). -/
abbrev Word := BitVec 16

end Sys2Proof
end

