-- ==== Sys2Proof/Syntax.lean ====
section
/-! DEFINITION. The instructions, one constructor per mnemonic of `spec/opcode_table.json` (`00_scope.md` R2). The
table's rows of one mnemonic differ in their operand fields alone and are that constructor at other operands. -/

namespace Sys2Proof

/-- The seven general registers (`10_state.md` R11). Id 6 is no register, so it cannot be written here. -/
inductive Reg where
  | b | c | d | e | h | l | a
  deriving DecidableEq, Repr

/-- What a 3-bit operand field names: a register, or (field value 6) the memory byte at HL, written `M`
(`30_encoding.md` R60). -/
inductive Operand where
  | reg (r : Reg)
  | mem
  deriving DecidableEq, Repr

/-- A decoded instruction with its operands. An immediate is the byte after the opcode (`30_encoding.md` R61). -/
inductive Instr where
  /-- `MOV dst,src` (`41_data_transfer.md` R90, R91, R92). -/
  | mov (dst src : Operand)
  /-- `MVI dst,imm` (`41_data_transfer.md` R93, R94). -/
  | mvi (dst : Operand) (imm : Byte)
  /-- `INR dst` (`42_increment_decrement.md` R95, R96). -/
  | inr (dst : Operand)
  /-- `DCR dst` (`42_increment_decrement.md` R97, R98). -/
  | dcr (dst : Operand)
  /-- `ADD src` (`43_arithmetic.md` R100, R101). -/
  | add (src : Operand)
  /-- `ADC src` (`43_arithmetic.md` R103, R104). -/
  | adc (src : Operand)
  /-- `SUB src` (`43_arithmetic.md` R106, R107). -/
  | sub (src : Operand)
  /-- `SBB src` (`43_arithmetic.md` R109, R110). -/
  | sbb (src : Operand)
  /-- `ANA src` (`44_logical_compare.md` R112, R113). -/
  | ana (src : Operand)
  /-- `XRA src` (`44_logical_compare.md` R115, R116). -/
  | xra (src : Operand)
  /-- `ORA src` (`44_logical_compare.md` R118, R119). -/
  | ora (src : Operand)
  /-- `CMP src` (`44_logical_compare.md` R121, R122). -/
  | cmp (src : Operand)
  /-- `ADI imm` (`43_arithmetic.md` R102). -/
  | adi (imm : Byte)
  /-- `ACI imm` (`43_arithmetic.md` R105). -/
  | aci (imm : Byte)
  /-- `SUI imm` (`43_arithmetic.md` R108). -/
  | sui (imm : Byte)
  /-- `SBI imm` (`43_arithmetic.md` R111). -/
  | sbi (imm : Byte)
  /-- `ANI imm` (`44_logical_compare.md` R114). -/
  | ani (imm : Byte)
  /-- `XRI imm` (`44_logical_compare.md` R117). -/
  | xri (imm : Byte)
  /-- `ORI imm` (`44_logical_compare.md` R120). -/
  | ori (imm : Byte)
  /-- `CPI imm` (`44_logical_compare.md` R123). -/
  | cpi (imm : Byte)
  /-- `HLT` (`45_system_and_control.md` R124). -/
  | hlt
  deriving DecidableEq, Repr

end Sys2Proof
end

