-- ==== Sys2Proof/WellFormed.lean ====
section
/-! DEFINITION. The one check the syntax leaves: `MOV` with both operands in memory has no encoding
(`30_encoding.md` R53, `40_operands_and_flags.md` R73). -/

namespace Sys2Proof

/-- The operand is the memory byte at HL. -/
def Operand.isMem : Operand → Bool
  | .reg _ => false
  | .mem => true

/-- The instruction has an encoding. -/
def Instr.wellFormed : Instr → Bool
  | .mov dst src => !(dst.isMem && src.isMem)
  | .mvi _ _ => true
  | .inr _ => true
  | .dcr _ => true
  | .add _ => true
  | .adc _ => true
  | .sub _ => true
  | .sbb _ => true
  | .ana _ => true
  | .xra _ => true
  | .ora _ => true
  | .cmp _ => true
  | .adi _ => true
  | .aci _ => true
  | .sui _ => true
  | .sbi _ => true
  | .ani _ => true
  | .xri _ => true
  | .ori _ => true
  | .cpi _ => true
  | .hlt => true

end Sys2Proof
end

