-- ==== Sys2Proof/Decode.lean ====
section
/-! DEFINITION. The classifier of opcode bytes in the spec's priority order (`30_encoding.md` R52 to R60, R64), the
decoder of byte sequences built on it, and the encoder written from the same formulas. -/

namespace Sys2Proof

/-- Why a byte sequence is no instruction. -/
inductive DecodeError where
  /-- The opcode byte matches no pattern (`30_encoding.md` R62). -/
  | unimplementedOpcode (op : Byte)
  /-- The sequence ends before the instruction does. In memory this cannot happen: addresses wrap. -/
  | endOfBytes
  deriving DecidableEq, Repr

/-- Operand-field decode (`30_encoding.md` R60): 6 is the memory operand, every other value a register. -/
def Operand.ofField (f : BitVec 3) : Operand :=
  match f.toNat with
  | 0 => .reg .b
  | 1 => .reg .c
  | 2 => .reg .d
  | 3 => .reg .e
  | 4 => .reg .h
  | 5 => .reg .l
  | 6 => .mem
  | _ => .reg .a

/-- `dst = op[5:3]`, in the ALU classes the operation selector (`30_encoding.md` R51; D4, log entry 4). -/
def dstField (op : Byte) : BitVec 3 := op.extractLsb' 3 3

/-- `src = op[2:0]` (`30_encoding.md` R51; D4, log entry 4). -/
def srcField (op : Byte) : BitVec 3 := op.extractLsb' 0 3

/-- The ALU class of selector `alu`, register/memory form (`30_encoding.md` R57, R59). -/
def aluInstr (alu : BitVec 3) (src : Operand) : Instr :=
  match alu.toNat with
  | 0 => .add src
  | 1 => .adc src
  | 2 => .sub src
  | 3 => .sbb src
  | 4 => .ana src
  | 5 => .xra src
  | 6 => .ora src
  | _ => .cmp src

/-- The ALU class of selector `alu`, immediate form (`30_encoding.md` R58, R59). -/
def aluImmInstr (alu : BitVec 3) (imm : Byte) : Instr :=
  match alu.toNat with
  | 0 => .adi imm
  | 1 => .aci imm
  | 2 => .sui imm
  | 3 => .sbi imm
  | 4 => .ani imm
  | 5 => .xri imm
  | 6 => .ori imm
  | _ => .cpi imm

/-- Whether one immediate byte follows the opcode: the `MVI` pattern and the ALU immediate pattern
(`30_encoding.md` R55, R58, R64). -/
def hasImm (op : Byte) : Bool :=
  (op &&& 0b11000111 == 0b00000110) || (op &&& 0b11000111 == 0b11000110)

/-- The length of the instruction an opcode byte begins, in bytes (`30_encoding.md` R64). -/
def opcodeLength (op : Byte) : Nat := if hasImm op then 2 else 1

/-- `Dispatch`'s classification, first match wins (`30_encoding.md` R52). `imm` is the byte after the opcode and is
used by the immediate formats alone. `none` is the last arm, `UnimplementedOpcode(op)`. -/
def decodeOp (op imm : Byte) : Option Instr :=
  if op = 0x76 then some .hlt
  else if op &&& 0b11000000 = 0x40 then some (.mov (.ofField (dstField op)) (.ofField (srcField op)))
  else if op &&& 0b11000111 = 0b00000110 then some (.mvi (.ofField (dstField op)) imm)
  else if op &&& 0b11000110 = 0b00000100 then
    if op.getLsbD 0 = false then some (.inr (.ofField (dstField op))) else some (.dcr (.ofField (dstField op)))
  else if op &&& 0b11000000 = 0b10000000 then some (aluInstr (dstField op) (.ofField (srcField op)))
  else if op &&& 0b11000111 = 0b11000110 then some (aluImmInstr (dstField op) imm)
  else none

/-- The instruction at the head of a byte sequence and the bytes after it, or the reason there is none. -/
def decode : List Byte → Except DecodeError (Instr × List Byte)
  | [] => .error .endOfBytes
  | op :: rest =>
    if hasImm op then
      match rest with
      | [] => .error .endOfBytes
      | imm :: rest' =>
        match decodeOp op imm with
        | some i => .ok (i, rest')
        | none => .error (.unimplementedOpcode op)
    else
      match decodeOp op 0 with
      | some i => .ok (i, rest)
      | none => .error (.unimplementedOpcode op)

/-- The 3-bit id of a register (`10_state.md` R11). -/
def Reg.id : Reg → Nat
  | .b => 0
  | .c => 1
  | .d => 2
  | .e => 3
  | .h => 4
  | .l => 5
  | .a => 7

/-- The 3-bit field of an operand (`30_encoding.md` R60). -/
def Operand.field : Operand → Nat
  | .reg r => r.id
  | .mem => 6

/-- The opcode byte, from the opcode-value formulas of `30_encoding.md` R53 to R58. -/
def Instr.opcode : Instr → Byte
  | .mov dst src => BitVec.ofNat 8 (0x40 + 8 * dst.field + src.field)
  | .mvi dst _ => BitVec.ofNat 8 (0x06 + 8 * dst.field)
  | .inr dst => BitVec.ofNat 8 (0x04 + 8 * dst.field)
  | .dcr dst => BitVec.ofNat 8 (0x05 + 8 * dst.field)
  | .add src => BitVec.ofNat 8 (0x80 + 8 * 0 + src.field)
  | .adc src => BitVec.ofNat 8 (0x80 + 8 * 1 + src.field)
  | .sub src => BitVec.ofNat 8 (0x80 + 8 * 2 + src.field)
  | .sbb src => BitVec.ofNat 8 (0x80 + 8 * 3 + src.field)
  | .ana src => BitVec.ofNat 8 (0x80 + 8 * 4 + src.field)
  | .xra src => BitVec.ofNat 8 (0x80 + 8 * 5 + src.field)
  | .ora src => BitVec.ofNat 8 (0x80 + 8 * 6 + src.field)
  | .cmp src => BitVec.ofNat 8 (0x80 + 8 * 7 + src.field)
  | .adi _ => BitVec.ofNat 8 (0xC6 + 8 * 0)
  | .aci _ => BitVec.ofNat 8 (0xC6 + 8 * 1)
  | .sui _ => BitVec.ofNat 8 (0xC6 + 8 * 2)
  | .sbi _ => BitVec.ofNat 8 (0xC6 + 8 * 3)
  | .ani _ => BitVec.ofNat 8 (0xC6 + 8 * 4)
  | .xri _ => BitVec.ofNat 8 (0xC6 + 8 * 5)
  | .ori _ => BitVec.ofNat 8 (0xC6 + 8 * 6)
  | .cpi _ => BitVec.ofNat 8 (0xC6 + 8 * 7)
  | .hlt => 0x76

/-- The immediate byte of an instruction that has one (`30_encoding.md` R61). -/
def Instr.immediate : Instr → Option Byte
  | .mov _ _ => none
  | .mvi _ imm => some imm
  | .inr _ => none
  | .dcr _ => none
  | .add _ => none
  | .adc _ => none
  | .sub _ => none
  | .sbb _ => none
  | .ana _ => none
  | .xra _ => none
  | .ora _ => none
  | .cmp _ => none
  | .adi imm => some imm
  | .aci imm => some imm
  | .sui imm => some imm
  | .sbi imm => some imm
  | .ani imm => some imm
  | .xri imm => some imm
  | .ori imm => some imm
  | .cpi imm => some imm
  | .hlt => none

/-- The bytes of an instruction, opcode first (`20_memory.md` R36). -/
def encode (i : Instr) : List Byte := i.opcode :: i.immediate.toList

/-- The two bytes the opcode table's numbering gives: bit 0 is bit 0 of the opcode, bit 8 is bit 0 of the immediate,
and every bit from `nbits` up is 0. -/
def tableWordBytes (nbits w : Nat) : Byte × Byte :=
  (BitVec.ofNat 8 (w % 2 ^ nbits), BitVec.ofNat 8 (w % 2 ^ nbits / 256))

/-- The instruction the decoder reads from a table word, or none where it refuses. -/
def decodeTableWord (nbits w : Nat) : Option Instr :=
  match decode [(tableWordBytes nbits w).1, (tableWordBytes nbits w).2] with
  | .ok p => some p.1
  | .error _ => none

end Sys2Proof
end

