-- ==== Sys2Proof/Config.lean ====
section
/-! DEFINITION. What the spec calls a parameter of the hardware (`00_scope.md` section 4). The spec leaves no value
free, so this file holds no opaque constant. -/

namespace Sys2Proof.Config

/-- `SP_RESET`, the value of `sp` after reset: "top of memory" (`10_state.md` R19, R27). The number is the spec's own
decision D7 (log entry 7); no instruction reads `sp`. -/
def spReset : Word := 0xFFFF

end Sys2Proof.Config
end

