-- ==== Sys2Proof/Machine/State.lean ====
section
/-! DEFINITION. The state of the hardware as plain data (`10_state.md` R10, R26), the reasons a step can stop, and the
state after reset (R27). -/

namespace Sys2Proof.Machine

/-- The seven general registers (`10_state.md` R11). -/
structure Regs where
  a : Byte
  b : Byte
  c : Byte
  d : Byte
  e : Byte
  h : Byte
  l : Byte
  deriving DecidableEq, Repr

/-- The five condition flags, separate booleans with no packed form (`10_state.md` R20). -/
structure Flags where
  zero : Bool
  sign : Bool
  parity : Bool
  carry : Bool
  auxiliaryCarry : Bool
  deriving DecidableEq, Repr

/-- The 65,536-byte memory (`10_state.md` R25), as the cells that differ from what an unlisted address reads as, by
rising address (log entry 13). `Memory.wf` says the canonical form. -/
structure Memory where
  cells : List Host.Cell
  deriving DecidableEq, Repr

/-- The three fatal conditions, named and not numbered (`60_exceptions.md` R130; D15, log entry 9). -/
inductive FatalCondition where
  /-- Raised by the dispatcher on one of the 96 undefined opcode bytes, with that byte (R131). -/
  | unimplementedOpcode (op : Byte)
  /-- Raised by the MOV handler when both operands are memory; no opcode byte causes it (R132). -/
  | illegalMemoryToMemoryMove
  /-- Raised by the register file for an id that names no register; no opcode byte causes it (R133). -/
  | invalidRegisterId
  deriving DecidableEq, Repr

/-- The run status (`10_state.md` R26; D8 and D9, log entries 8 and 9). -/
inductive Status where
  | running
  | halted
  | faulted (c : FatalCondition)
  deriving DecidableEq, Repr

/-- The register pairs. Pair id 3 has no meaning and is not representable (`10_state.md` R16; D13, log entry 11). -/
inductive PairId where
  | bc | de | hl
  deriving DecidableEq, Repr

/-- An operand location: a register slot or a memory cell (`40_operands_and_flags.md` R70). -/
inductive Loc where
  | reg (r : Reg)
  | mem (addr : Word)
  deriving DecidableEq, Repr

/-- `ProcessorState` (`10_state.md` R10) and the run status (R26). The spec gives the machine nothing else. -/
structure State where
  regs : Regs
  pc : Word
  sp : Word
  flags : Flags
  mem : Memory
  status : Status
  deriving DecidableEq, Repr

/-- Why the machine has no next state. Both are raised by `step` alone. -/
inductive Fault where
  /-- A step in status Halted: the run is over and no step is enabled (`10_state.md` R26, U10). Safe: the hardware
  makes no transition there either. -/
  | runHalted
  /-- A step in status Faulted: the run ended in a fatal condition (`60_exceptions.md` R134, R136, U10). Safe: the
  hardware makes no transition there either. -/
  | runFaulted (c : FatalCondition)
  deriving DecidableEq, Repr

/-- Why the model has no meaning to give. -/
inductive Refusal where
  /-- For an arm of `exec` whose instruction has no meaning yet. No arm uses it. Safe. -/
  | notModelled (mnemonic : String)
  /-- Raised by `State.loadImage` when the loaded form of the image exceeds memory: no legal launch
  (`70_reset_and_hazards.md` R151; D12, log entry 12). Safe. -/
  | imageTooLong
  deriving DecidableEq, Repr

/-- What a step answers. -/
abbrev StepResult := Host.Outcome State Fault Refusal

/-- The state after reset, before the image is loaded (`10_state.md` R27): everything zero but `sp`. -/
def State.reset : State where
  regs := { a := 0, b := 0, c := 0, d := 0, e := 0, h := 0, l := 0 }
  pc := 0
  sp := Config.spReset
  flags := { zero := false, sign := false, parity := false, carry := false, auxiliaryCarry := false }
  mem := { cells := [] }
  status := .running

end Sys2Proof.Machine
end

