-- ==== Sys2Proof/Machine/Ops.lean ====
section
/-! DEFINITION. The named operations on memory, registers, `pc` and the run status that every instruction goes
through, the fetches, and taking a fatal condition. -/

namespace Sys2Proof.Machine

/-- What an address that is not listed reads as: memory is zero-initialised (`10_state.md` R25, R27). -/
def Memory.unlisted : Byte := 0

/-- The byte listed for a key, or `Memory.unlisted`. -/
def lookupCell (k : Nat) : List Host.Cell → Byte
  | [] => Memory.unlisted
  | c :: cs => if c.1 = k then c.2 else lookupCell k cs

/-- Insert a cell before the first cell of a greater address. -/
def insertCell (c : Host.Cell) : List Host.Cell → List Host.Cell
  | [] => [c]
  | d :: ds => if d.1 < c.1 then d :: insertCell c ds else c :: d :: ds

/-- The cells of every other address. -/
def dropCell (k : Nat) (cs : List Host.Cell) : List Host.Cell := cs.filter fun c => c.1 != k

/-- `Memory[addr]` (`20_memory.md` R31). -/
def Memory.read (m : Memory) (addr : Word) : Byte := lookupCell addr.toNat m.cells

/-- `Memory[addr] <- v` (`20_memory.md` R31), keeping the canonical form. -/
def Memory.write (m : Memory) (addr : Word) (v : Byte) : Memory :=
  { cells := if v = Memory.unlisted then dropCell addr.toNat m.cells
             else insertCell (addr.toNat, v) (dropCell addr.toNat m.cells) }

/-- Keys from `lo` up, strictly rising and below 65,536, no cell equal to what an unlisted address reads as. -/
def canonicalFrom (lo : Nat) : List Host.Cell → Bool
  | [] => true
  | c :: cs => decide (lo ≤ c.1) && decide (c.1 < 65536) && (c.2 != Memory.unlisted) && canonicalFrom (c.1 + 1) cs

/-- The canonical form of memory: equal memories are equal data. -/
def Memory.wf (m : Memory) : Bool := canonicalFrom 0 m.cells

/-- `MemRead(addr, 1)`: total, changes nothing (`20_memory.md` R31). -/
def State.memRead (s : State) (addr : Word) : Byte := s.mem.read addr

/-- `MemWrite(addr, 1, v)`: total, changes that cell alone (`20_memory.md` R31). -/
def State.memWrite (s : State) (addr : Word) (v : Byte) : State := { s with mem := s.mem.write addr v }

/-- The bytes from `addr` up, `n` of them, addresses wrapping modulo 65,536 (`20_memory.md` R32). -/
def State.readBytes (s : State) (addr : Word) : Nat → List Byte
  | 0 => []
  | n + 1 => s.memRead addr :: s.readBytes (addr + 1) n

/-- `x[i]` (`10_state.md` R11, R13). -/
def State.readReg (s : State) : Reg → Byte
  | .b => s.regs.b
  | .c => s.regs.c
  | .d => s.regs.d
  | .e => s.regs.e
  | .h => s.regs.h
  | .l => s.regs.l
  | .a => s.regs.a

/-- `x[i] <- v` (`10_state.md` R13). -/
def State.writeReg (s : State) (r : Reg) (v : Byte) : State :=
  match r with
  | .b => { s with regs := { s.regs with b := v } }
  | .c => { s with regs := { s.regs with c := v } }
  | .d => { s with regs := { s.regs with d := v } }
  | .e => { s with regs := { s.regs with e := v } }
  | .h => { s with regs := { s.regs with h := v } }
  | .l => { s with regs := { s.regs with l := v } }
  | .a => { s with regs := { s.regs with a := v } }

/-- The high and the low register of a pair (`10_state.md` R15). -/
def PairId.regs : PairId → Reg × Reg
  | .bc => (.b, .c)
  | .de => (.d, .e)
  | .hl => (.h, .l)

/-- `high * 256 + low`, a word (`10_state.md` R15). -/
def pairValue (high low : Byte) : Word := BitVec.ofNat 16 (high.toNat * 256 + low.toNat)

/-- `read_pair`: a view of two registers (`10_state.md` R15, R16). -/
def State.readPair (s : State) (p : PairId) : Word := pairValue (s.readReg p.regs.1) (s.readReg p.regs.2)

/-- Write all five flags together (`10_state.md` R23). -/
def State.setFlags (s : State) (f : Flags) : State := { s with flags := f }

/-- `pc <- v`. -/
def State.setPc (s : State) (v : Word) : State := { s with pc := v }

/-- The driver's fetch: the byte at `pc`, with `pc` moved on by one modulo 65,536 (`30_encoding.md` R50). -/
def State.fetchOpcode (s : State) : Byte × State := (s.memRead s.pc, s.setPc (s.pc + 1))

/-- `FetchImm()`: the byte at `pc`, with `pc` moved on by one modulo 65,536 (`40_operands_and_flags.md` R74). -/
def State.fetchImm (s : State) : Byte × State := (s.memRead s.pc, s.setPc (s.pc + 1))

/-- The immediate fetch where the opcode's format has an immediate, before anything else the handler does
(`40_operands_and_flags.md` R74); nothing otherwise. -/
def State.fetchRest (s : State) (op : Byte) : Byte × State := if hasImm op then s.fetchImm else (0, s)

/-- Taking a fatal condition: the run status becomes Faulted and nothing else changes. No pc or status is saved, there
is no handler, and `pc` stays where the fetches put it (`60_exceptions.md` R134, R135; D9, log entry 9). No operation
returns from one (R136). -/
def State.raiseFatal (s : State) (c : FatalCondition) : State := { s with status := .faulted c }

/-- The run ends normally: the status becomes Halted and nothing else changes (`45_system_and_control.md` R124; D8,
log entry 8). -/
def State.halt (s : State) : State := { s with status := .halted }

end Sys2Proof.Machine
end

