-- ==== Sys2Proof/Machine/Flags.lean ====
section
/-! DEFINITION. The flag derivations and the two ALU units (`40_operands_and_flags.md` R76 to R89). All arithmetic is on
unsigned bytes: exact over the integers, then narrowed (log entries 2, 6 and 14). -/

namespace Sys2Proof.Machine

/-- The number of one bits of a byte (`00_scope.md` R9). -/
def popcount (v : Byte) : Nat := (List.range 8).countP fun i => v.getLsbD i

/-- `v[3:0]`. -/
def lowNibble (v : Byte) : Nat := v.toNat % 16

/-- `SetZSP(r)`: zero, sign and parity of the byte `r`, no other flag (`40_operands_and_flags.md` R76 to R79). -/
def setZSP (r : Byte) (f : Flags) : Flags :=
  { f with
    zero := r == 0
    sign := r.getLsbD 7
    parity := popcount r % 2 == 0 }

/-- `AddFlags(a, b, cin)`: the result byte and the five flags of `a + b + cin` (`40_operands_and_flags.md` R82, R80,
R84). -/
def addFlags (a b : Byte) (cin : Bool) : Byte × Flags :=
  let t := a.toNat + b.toNat + cin.toNat
  let r : Byte := BitVec.ofNat 8 (t % 256)
  (r, setZSP r
    { zero := false, sign := false, parity := false
      carry := decide (t > 255)
      auxiliaryCarry := decide (lowNibble a + lowNibble b + cin.toNat > 15) })

/-- `SubFlags(a, b, bin)`: the result byte and the five flags of `a - b - bin`, carry being the borrow
(`40_operands_and_flags.md` R83, R81, R85). -/
def subFlags (a b : Byte) (bin : Bool) : Byte × Flags :=
  let r : Byte := BitVec.ofInt 8 (((a.toNat : Int) - b.toNat - bin.toNat) % 256)
  (r, setZSP r
    { zero := false, sign := false, parity := false
      carry := decide (b.toNat + bin.toNat > a.toNat)
      auxiliaryCarry := decide (lowNibble a < lowNibble b + bin.toNat) })

/-- The flags of a logical result: carry and auxiliary carry forced false (`40_operands_and_flags.md` R86). -/
def logicFlags (r : Byte) (f : Flags) : Flags :=
  { setZSP r f with carry := false, auxiliaryCarry := false }

/-- `INR`'s result and flags: those of `AddFlags(v, 1, 0)` with the old carry (`40_operands_and_flags.md` R87). -/
def incFlags (v : Byte) (f : Flags) : Byte × Flags :=
  ((addFlags v 1 false).1, { (addFlags v 1 false).2 with carry := f.carry })

/-- `DCR`'s result and flags: those of `SubFlags(v, 1, 0)` with the old carry (`40_operands_and_flags.md` R87). -/
def decFlags (v : Byte) (f : Flags) : Byte × Flags :=
  ((subFlags v 1 false).1, { (subFlags v 1 false).2 with carry := f.carry })

end Sys2Proof.Machine
end

