-- ==== Sys2Proof/Machine/Operands.lean ====
section
/-! DEFINITION. The operand resolver and its three addressing modes (`40_operands_and_flags.md` R70 to R75). The third
mode, the immediate, is fetched by `State.fetchRest` and reaches the handler inside the instruction. -/

namespace Sys2Proof.Machine

/-- The location an operand names, HL taken at the moment of the call (`40_operands_and_flags.md` R70, R71, R72). -/
def State.resolve (s : State) : Operand → Loc
  | .reg r => .reg r
  | .mem => .mem (s.readPair .hl)

/-- The byte at a location. -/
def State.readLoc (s : State) : Loc → Byte
  | .reg r => s.readReg r
  | .mem addr => s.memRead addr

/-- Store a byte at a location. -/
def State.writeLoc (s : State) (loc : Loc) (v : Byte) : State :=
  match loc with
  | .reg r => s.writeReg r v
  | .mem addr => s.memWrite addr v

/-- `ReadOperand` (`40_operands_and_flags.md` R71). -/
def State.readOperand (s : State) (o : Operand) : Byte := s.readLoc (s.resolve o)

/-- `WriteOperand` (`40_operands_and_flags.md` R72). -/
def State.writeOperand (s : State) (o : Operand) (v : Byte) : State := s.writeLoc (s.resolve o) v

end Sys2Proof.Machine
end

