-- ==== Sys2Proof/Machine/Accumulator.lean ====
section
/-! DEFINITION. What the ALU instructions share: an update of A with its flags, and an update in place
(`10_state.md` R21, R23). -/

namespace Sys2Proof.Machine

/-- `A <- AddFlags(A, b, cin)` (`43_arithmetic.md` R100, R103). -/
def State.addToA (s : State) (b : Byte) (cin : Bool) : State :=
  (s.writeReg .a (addFlags (s.readReg .a) b cin).1).setFlags (addFlags (s.readReg .a) b cin).2

/-- `A <- SubFlags(A, b, bin)` (`43_arithmetic.md` R106, R109). -/
def State.subFromA (s : State) (b : Byte) (bin : Bool) : State :=
  (s.writeReg .a (subFlags (s.readReg .a) b bin).1).setFlags (subFlags (s.readReg .a) b bin).2

/-- `discard SubFlags(A, b, 0)`: the flags alone (`44_logical_compare.md` R121). -/
def State.compareWithA (s : State) (b : Byte) : State := s.setFlags (subFlags (s.readReg .a) b false).2

/-- `SetZSP(res); carry <- false; auxiliary_carry <- false; A <- res` (`44_logical_compare.md` R112, R115, R118). -/
def State.logicToA (s : State) (res : Byte) : State := (s.writeReg .a res).setFlags (logicFlags res s.flags)

/-- Read a location, change its byte and write it back at the same location, with the flags the change gives
(`42_increment_decrement.md` R95 to R98). -/
def State.updateInPlace (s : State) (dst : Operand) (f : Byte → Flags → Byte × Flags) : State :=
  (s.writeLoc (s.resolve dst) (f (s.readLoc (s.resolve dst)) s.flags).1).setFlags
    (f (s.readLoc (s.resolve dst)) s.flags).2

end Sys2Proof.Machine
end

