-- ==== Sys2Proof/Machine/Arithmetic.lean ====
section
/-! DEFINITION. `ADD`, `ADC`, `SUB`, `SBB` and their immediate forms (`43_arithmetic.md`). The carry read is the one
before the instruction (`10_state.md` R23). -/

namespace Sys2Proof.Machine

/-- `ADD src` (R100, R101). -/
def execAdd (src : Operand) (s : State) : StepResult := .next (s.addToA (s.readOperand src) false)

/-- `ADC src` (R103, R104). -/
def execAdc (src : Operand) (s : State) : StepResult := .next (s.addToA (s.readOperand src) s.flags.carry)

/-- `SUB src` (R106, R107). -/
def execSub (src : Operand) (s : State) : StepResult := .next (s.subFromA (s.readOperand src) false)

/-- `SBB src` (R109, R110). -/
def execSbb (src : Operand) (s : State) : StepResult := .next (s.subFromA (s.readOperand src) s.flags.carry)

/-- `ADI imm` (R102). -/
def execAdi (imm : Byte) (s : State) : StepResult := .next (s.addToA imm false)

/-- `ACI imm` (R105). -/
def execAci (imm : Byte) (s : State) : StepResult := .next (s.addToA imm s.flags.carry)

/-- `SUI imm` (R108). -/
def execSui (imm : Byte) (s : State) : StepResult := .next (s.subFromA imm false)

/-- `SBI imm` (R111). -/
def execSbi (imm : Byte) (s : State) : StepResult := .next (s.subFromA imm s.flags.carry)

end Sys2Proof.Machine
end

