-- ==== Sys2Proof/Machine/DataTransfer.lean ====
section
/-! DEFINITION. `MOV` and `MVI` (`41_data_transfer.md`). In this and every other family file a meaning is the handler's
body: the fetches, and with them `pc`, are done before it is entered (`10_state.md` R18; log entry 10). -/

namespace Sys2Proof.Machine

/-- `MOV dst,src` (R90, R91, R92). Both operands in memory is rejected before any read or write (R73, R132); no opcode
byte encodes that. -/
def execMov (dst src : Operand) (s : State) : StepResult :=
  match s.resolve dst, s.resolve src with
  | .mem _, .mem _ => .next (s.raiseFatal .illegalMemoryToMemoryMove)
  | dstLoc, srcLoc => .next (s.writeLoc dstLoc (s.readLoc srcLoc))

/-- `MVI dst,imm` (R93, R94; D5, log entry 5). -/
def execMvi (dst : Operand) (imm : Byte) (s : State) : StepResult := .next (s.writeOperand dst imm)

end Sys2Proof.Machine
end

