-- ==== Sys2Proof/Machine/IncrementDecrement.lean ====
section
/-! DEFINITION. `INR` and `DCR` (`42_increment_decrement.md`). -/

namespace Sys2Proof.Machine

/-- `INR dst` (R95, R96). -/
def execInr (dst : Operand) (s : State) : StepResult := .next (s.updateInPlace dst incFlags)

/-- `DCR dst` (R97, R98). -/
def execDcr (dst : Operand) (s : State) : StepResult := .next (s.updateInPlace dst decFlags)

end Sys2Proof.Machine
end

