-- ==== Sys2Proof/Machine/LogicalCompare.lean ====
section
/-! DEFINITION. `ANA`, `XRA`, `ORA`, `CMP` and their immediate forms (`44_logical_compare.md`). -/

namespace Sys2Proof.Machine

/-- `ANA src` (R112, R113). -/
def execAna (src : Operand) (s : State) : StepResult := .next (s.logicToA (s.readReg .a &&& s.readOperand src))

/-- `XRA src` (R115, R116). -/
def execXra (src : Operand) (s : State) : StepResult := .next (s.logicToA (s.readReg .a ^^^ s.readOperand src))

/-- `ORA src` (R118, R119). -/
def execOra (src : Operand) (s : State) : StepResult := .next (s.logicToA (s.readReg .a ||| s.readOperand src))

/-- `CMP src` (R121, R122). -/
def execCmp (src : Operand) (s : State) : StepResult := .next (s.compareWithA (s.readOperand src))

/-- `ANI imm` (R114). -/
def execAni (imm : Byte) (s : State) : StepResult := .next (s.logicToA (s.readReg .a &&& imm))

/-- `XRI imm` (R117). -/
def execXri (imm : Byte) (s : State) : StepResult := .next (s.logicToA (s.readReg .a ^^^ imm))

/-- `ORI imm` (R120). -/
def execOri (imm : Byte) (s : State) : StepResult := .next (s.logicToA (s.readReg .a ||| imm))

/-- `CPI imm` (R123). -/
def execCpi (imm : Byte) (s : State) : StepResult := .next (s.compareWithA imm)

end Sys2Proof.Machine
end

