-- ==== Sys2Proof/Machine/SystemControl.lean ====
section
/-! DEFINITION. `HLT`, the one instruction that is no data operation (`45_system_and_control.md`). -/

namespace Sys2Proof.Machine

/-- `HLT` (R124): the run status becomes Halted; no register, flag or memory byte changes. -/
def execHlt (s : State) : StepResult := .next s.halt

end Sys2Proof.Machine
end

