-- ==== Sys2Proof/Machine/Step.lean ====
section
/-! DEFINITION. `Dispatch` and `Step` (`30_encoding.md` R50, R52). -/

namespace Sys2Proof.Machine

/-- `Dispatch(op)`, the core's entry point, entered with `pc` past the opcode byte. It is total on any byte and any
state and does not compare `op` with memory (`30_encoding.md` R50, U12). -/
def dispatch (op : Byte) (s : State) : StepResult :=
  match decodeOp op (s.fetchRest op).1 with
  | some i => exec i (s.fetchRest op).2
  | none => .next (s.raiseFatal (.unimplementedOpcode op))

/-- `Step()`: the driver's fetch and the dispatch, enabled while the run status is Running (`30_encoding.md` R50,
`10_state.md` R26; D11). -/
def step (s : State) : Host.Outcome State Fault Refusal :=
  match s.status with
  | .running => dispatch s.fetchOpcode.1 s.fetchOpcode.2
  | .halted => .fault .runHalted
  | .faulted c => .fault (.runFaulted c)

/-- The table word's two bytes at `pc`, and the status Running, so that the next step runs them (log entry 15). -/
def State.withFetchWord (s : State) (nbits w : Nat) : State :=
  { (s.memWrite s.pc (tableWordBytes nbits w).1).memWrite (s.pc + 1) (tableWordBytes nbits w).2 with
    status := .running }

end Sys2Proof.Machine
end

