-- ==== Sys2Proof/Machine/RegisterFile.lean ====
section
/-! DEFINITION. The register file's own interface by numeric id (`10_state.md` R13, R158's `reg_read` and `reg_write`),
and the operand resolver over raw 3-bit fields that calls it. The handlers use the typed accessors, where the invalid
ids cannot be written; the laws show the two agree. -/

namespace Sys2Proof.Machine

/-- The register an id names, none for 6 and for anything above 7 (`10_state.md` R11, R12). -/
def regOfId : Nat → Option Reg
  | 0 => some .b
  | 1 => some .c
  | 2 => some .d
  | 3 => some .e
  | 4 => some .h
  | 5 => some .l
  | 7 => some .a
  | _ => none

/-- `read(id)` (`10_state.md` R13). -/
def State.regRead (s : State) (id : Nat) : Except FatalCondition Byte :=
  match regOfId id with
  | some r => .ok (s.readReg r)
  | none => .error .invalidRegisterId

/-- `write(id, v)` (`10_state.md` R13). -/
def State.regWrite (s : State) (id : Nat) (v : Byte) : Except FatalCondition State :=
  match regOfId id with
  | some r => .ok (s.writeReg r v)
  | none => .error .invalidRegisterId

/-- `ReadOperand(f)` on a raw field (`40_operands_and_flags.md` R71): id 6 never reaches the register file. -/
def State.readField (s : State) (f : BitVec 3) : Except FatalCondition Byte :=
  if f = 6 then .ok (s.memRead (s.readPair .hl)) else s.regRead f.toNat

/-- `WriteOperand(f, v)` on a raw field (`40_operands_and_flags.md` R72). -/
def State.writeField (s : State) (f : BitVec 3) (v : Byte) : Except FatalCondition State :=
  if f = 6 then .ok (s.memWrite (s.readPair .hl) v) else s.regWrite f.toNat v

end Sys2Proof.Machine
end

