-- ==== Sys2Proof/Machine/Driver.lean ====
section
/-! DEFINITION. The driver's image load, part of the core's contract with its host (`70_reset_and_hazards.md` R151). -/

namespace Sys2Proof.Machine

/-- The loaded form of an image: 0x76 is appended unless the last byte is 0x76 (R151). -/
def padImage (image : List Byte) : List Byte :=
  if image.getLast? = some 0x76 then image else image ++ [0x76]

/-- Copy bytes to consecutive addresses from `addr` up. -/
def copyBytes (m : Memory) (addr : Word) : List Byte → Memory
  | [] => m
  | v :: vs => copyBytes (m.write addr v) (addr + 1) vs

/-- `LoadImage(IMAGE)` (R151): memory alone is written, from address 0. An image whose loaded form exceeds 65,536 bytes
is refused (D12, log entry 12). -/
def State.loadImage (s : State) (image : List Byte) : StepResult :=
  if (padImage image).length ≤ 65536 then .next { s with mem := copyBytes s.mem 0 (padImage image) }
  else .refused .imageTooLong

end Sys2Proof.Machine
end

