-- ==== Sys2Proof/Safety.lean ====
section
/-! DEFINITION. What counts as a good run, and the invariant every step keeps. -/

namespace Sys2Proof

open Machine

/-- The 96 bytes that spell no instruction (`30_encoding.md` R62). -/
def undefinedOpcodes : List Byte :=
  [0x00, 0x01, 0x02, 0x03, 0x07, 0x08, 0x09, 0x0A, 0x0B, 0x0F] ++
  [0x10, 0x11, 0x12, 0x13, 0x17, 0x18, 0x19, 0x1A, 0x1B, 0x1F] ++
  [0x20, 0x21, 0x22, 0x23, 0x27, 0x28, 0x29, 0x2A, 0x2B, 0x2F] ++
  [0x30, 0x31, 0x32, 0x33, 0x37, 0x38, 0x39, 0x3A, 0x3B, 0x3F] ++
  [0xC0, 0xC1, 0xC2, 0xC3, 0xC4, 0xC5, 0xC7, 0xC8, 0xC9, 0xCA, 0xCB, 0xCC, 0xCD, 0xCF] ++
  [0xD0, 0xD1, 0xD2, 0xD3, 0xD4, 0xD5, 0xD7, 0xD8, 0xD9, 0xDA, 0xDB, 0xDC, 0xDD, 0xDF] ++
  [0xE0, 0xE1, 0xE2, 0xE3, 0xE4, 0xE5, 0xE7, 0xE8, 0xE9, 0xEA, 0xEB, 0xEC, 0xED, 0xEF] ++
  [0xF0, 0xF1, 0xF2, 0xF3, 0xF4, 0xF5, 0xF7, 0xF8, 0xF9, 0xFA, 0xFB, 0xFC, 0xFD, 0xFF]

/-- A run that has ended says truly why: the byte before `pc` is the `HLT` it halted on, or the undefined byte it
faulted on; no other condition ends a run (`60_exceptions.md` R131 to R135, `45_system_and_control.md` R124). -/
def EndsTruly (s : State) : Prop :=
  match s.status with
  | .running => True
  | .halted => s.memRead (s.pc - 1) = 0x76
  | .faulted c => c = .unimplementedOpcode (s.memRead (s.pc - 1)) ∧ s.memRead (s.pc - 1) ∈ undefinedOpcodes

/-- The invariant of the machine: memory is in canonical form, and a run that has ended says truly why. -/
def Inv (s : State) : Prop := s.mem.wf = true ∧ EndsTruly s

/-- The run from `s` ends within `n` steps at `t` by `HLT`. Only such an end is a successful one: a faulted run is not
a completed run (`60_exceptions.md` R134, `70_reset_and_hazards.md` R154). -/
def HaltsAt (n : Nat) (s t : State) : Prop := core.run n s = .next t ∧ t.status = .halted

end Sys2Proof
end

