-- ==== Sys2Proof/Certificates/Slice0/Obligations.lean ====
section
/-! DEFINITION. The statements for the provers, from the numbered rules of `spec/`. The predicates they share stand
first, written from the rules' own words over plain numbers and not over the model's flag functions. -/

namespace Sys2Proof.Claims

open Machine

/-- The machine is running and its memory holds the bytes `bs` from `pc` up. -/
abbrev Fetches (s : State) (bs : List Byte) : Prop := s.status = .running ∧ s.readBytes s.pc bs.length = bs

/-- Where memory holds the bytes `bs` at `pc`, a step is `exec i` with `pc` moved past them. With a statement that
`exec i` leaves `pc`, this is the rule's encoding, length and "`pc` after the step". -/
def RunsAs (s : State) (bs : List Byte) (i : Instr) : Prop :=
  Fetches s bs → step s = exec i (s.setPc (s.pc + BitVec.ofNat 16 bs.length))

/-- The number of one bits of a byte is even. -/
def EvenOnes (r : Byte) : Prop := ((List.range 8).filter fun i => r.toNat.testBit i).length % 2 = 0

/-- zero, sign and parity are those of the byte `r` (`40_operands_and_flags.md` R76, R77, R78). -/
def ZeroSignParityOf (r : Byte) (f : Flags) : Prop :=
  (f.zero = true ↔ r.toNat = 0) ∧ (f.sign = true ↔ 128 ≤ r.toNat) ∧ (f.parity = true ↔ EvenOnes r)

/-- Result and flags of `a + b + c` (`40_operands_and_flags.md` R82): unsigned, the carry-in a third term (the spec's
decisions D2 and D6, log entries 2 and 6). -/
def IsSum (a b : Byte) (c : Bool) (r : Byte) (f : Flags) : Prop :=
  r.toNat = (a.toNat + b.toNat + c.toNat) % 256 ∧ ZeroSignParityOf r f ∧
  (f.carry = true ↔ 255 < a.toNat + b.toNat + c.toNat) ∧
  (f.auxiliaryCarry = true ↔ 15 < a.toNat % 16 + b.toNat % 16 + c.toNat)

/-- Result and flags of `a - b - c` (`40_operands_and_flags.md` R83): unsigned, carry the borrow (the spec's decisions
D2 and D6, log entries 2 and 6). -/
def IsDifference (a b : Byte) (c : Bool) (r : Byte) (f : Flags) : Prop :=
  (r.toNat : Int) = ((a.toNat : Int) - b.toNat - c.toNat) % 256 ∧ ZeroSignParityOf r f ∧
  (f.carry = true ↔ a.toNat < b.toNat + c.toNat) ∧
  (f.auxiliaryCarry = true ↔ a.toNat % 16 < b.toNat % 16 + c.toNat)

/-- Result and flags of an increment: carry kept (`42_increment_decrement.md` R95). -/
def IsIncrement (v : Byte) (old : Flags) (r : Byte) (f : Flags) : Prop :=
  r.toNat = (v.toNat + 1) % 256 ∧ ZeroSignParityOf r f ∧ f.carry = old.carry ∧
  (f.auxiliaryCarry = true ↔ v.toNat % 16 = 15)

/-- Result and flags of a decrement: carry kept (`42_increment_decrement.md` R97). -/
def IsDecrement (v : Byte) (old : Flags) (r : Byte) (f : Flags) : Prop :=
  (r.toNat : Int) = ((v.toNat : Int) - 1) % 256 ∧ ZeroSignParityOf r f ∧ f.carry = old.carry ∧
  (f.auxiliaryCarry = true ↔ v.toNat % 16 = 0)

/-- The flags of a logical result (`40_operands_and_flags.md` R86). -/
def LogicalFlags (r : Byte) (f : Flags) : Prop :=
  ZeroSignParityOf r f ∧ f.carry = false ∧ f.auxiliaryCarry = false

/-- The frame of a form that stores nothing and writes no register but those in `rs`: the other registers, `pc`, `sp`,
the run status and every byte of memory. -/
def KeepsAllBut (rs : List Reg) (s t : State) : Prop :=
  (∀ q, q ∉ rs → t.readReg q = s.readReg q) ∧ t.pc = s.pc ∧ t.sp = s.sp ∧ t.status = s.status ∧
  ∀ x, t.memRead x = s.memRead x

/-- The frame of a form that stores one byte, at `x`: every register, `pc`, `sp`, the run status and every other byte
of memory. -/
def KeepsAllButByte (x : Word) (s t : State) : Prop :=
  (∀ q, t.readReg q = s.readReg q) ∧ t.pc = s.pc ∧ t.sp = s.sp ∧ t.status = s.status ∧
  ∀ y, y ≠ x → t.memRead y = s.memRead y

/-- `t` is `s` after A was replaced by `s`'s A plus `b` plus `c`, and nothing else but the flags. -/
def AddedToA (s : State) (b : Byte) (c : Bool) (t : State) : Prop :=
  IsSum (s.readReg .a) b c (t.readReg .a) t.flags ∧ KeepsAllBut [.a] s t

/-- `t` is `s` after A was replaced by `s`'s A minus `b` minus `c`, and nothing else but the flags. -/
def SubtractedFromA (s : State) (b : Byte) (c : Bool) (t : State) : Prop :=
  IsDifference (s.readReg .a) b c (t.readReg .a) t.flags ∧ KeepsAllBut [.a] s t

/-- `u` has the A of `s`, before an addition of `x` that answered `t`, and the flags of subtracting `x` from `t`'s A
alone. -/
def Restored (s : State) (x : Byte) (t u : State) : Prop :=
  u.readReg .a = s.readReg .a ∧ IsDifference (t.readReg .a) x false (u.readReg .a) u.flags

/-- `t` holds `v` at the HL of `s`, and its next opcode fetch, or the immediate fetch after it, gives `v` where HL is the
address fetched from (`20_memory.md` R43). -/
def StoredAndFetched (s : State) (v : Byte) (t : State) : Prop :=
  t.memRead (s.readPair .hl) = v ∧ (s.readPair .hl = t.pc → t.fetchOpcode.1 = v) ∧
  (s.readPair .hl = t.pc + 1 → t.fetchOpcode.2.fetchImm.1 = v)

/-- `t` is `s` with the flags of `A - b` and nothing else changed: for some byte, the discarded difference. -/
def ComparedWithA (s : State) (b : Byte) (t : State) : Prop :=
  (∃ d, IsDifference (s.readReg .a) b false d t.flags) ∧ (t.flags.zero = true ↔ s.readReg .a = b) ∧ KeepsAllBut [] s t

/-- `t` is `s` with the logical result `r` in A and its flags, and nothing else changed. -/
def LogicalIntoA (s : State) (r : Byte) (t : State) : Prop :=
  t.readReg .a = r ∧ LogicalFlags r t.flags ∧ KeepsAllBut [.a] s t

/-- Two states that differ at most in the four flags no instruction reads. -/
def AgreeButUnreadFlags (s t : State) : Prop :=
  (∀ q, s.readReg q = t.readReg q) ∧ s.pc = t.pc ∧ s.sp = t.sp ∧ s.flags.carry = t.flags.carry ∧ s.mem = t.mem ∧
  s.status = t.status

/-- The opcode bytes that store to memory: `INR M`, `DCR M`, `MVI M` and `MOV M,r` (`20_memory.md` R34). -/
def storingOpcodes : List Byte := [0x34, 0x35, 0x36, 0x70, 0x71, 0x72, 0x73, 0x74, 0x75, 0x77]

end Sys2Proof.Claims

open Sys2Proof Sys2Proof.Machine Sys2Proof.Claims

/-- Reset (`10_state.md` section 10). That `sp` is 0xFFFF is the spec's own decision D7 and the status D8 (log entries 7
and 8). -/
def Obligations.ResetState : Prop :=
  (∀ q, State.reset.readReg q = 0) ∧ State.reset.pc = 0 ∧ State.reset.sp = 0xFFFF ∧
  State.reset.flags = ⟨false, false, false, false, false⟩ ∧ (∀ x, State.reset.memRead x = 0) ∧
  State.reset.status = .running

/-- The invariant holds after reset (`10_state.md` section 10). The canonical form of memory is the model's own choice (log
entry 13); the run status is the spec's own decision D8, D9 (log entries 8 and 9). -/
def Obligations.ResetMeetsInvariant : Prop :=
  Inv State.reset

/-- Every step keeps the invariant. The status representation is the spec's own decision D8, D9 (log entries 8 and 9),
the canonical form the model's (log entry 13). -/
def Obligations.StepKeepsInvariant : Prop :=
  ∀ s t : State, Inv s → step s = .next t → Inv t

/-- `20_memory.md` R31: both primitives are total, a write changes its cell alone. -/
def Obligations.MemoryHoldsWhatWasWritten : Prop :=
  ∀ (s : State) (x : Word) (v : Byte),
    (s.memWrite x v).memRead x = v ∧ (∀ y, y ≠ x → (s.memWrite x v).memRead y = s.memRead y) ∧
    (∀ q, (s.memWrite x v).readReg q = s.readReg q) ∧ (s.memWrite x v).flags = s.flags ∧
    (s.memWrite x v).pc = s.pc ∧ (s.memWrite x v).sp = s.sp ∧ (s.memWrite x v).status = s.status

/-- `10_state.md` R13, with its last sentence: no opcode byte causes `InvalidRegisterId`. -/
def Obligations.RegisterFileContract : Prop :=
  (∀ (s : State) (id : Nat) (r : Reg) (v : Byte),
    (id, r) ∈ [(0, Reg.b), (1, .c), (2, .d), (3, .e), (4, .h), (5, .l), (7, .a)] →
    s.regRead id = .ok (s.readReg r) ∧
    ∃ t : State, s.regWrite id v = .ok t ∧ t.readReg r = v ∧ t.regRead id = .ok v ∧
      (∀ q, q ≠ r → t.readReg q = s.readReg q) ∧ t.pc = s.pc ∧ t.sp = s.sp ∧ t.flags = s.flags ∧ t.mem = s.mem ∧
      t.status = s.status) ∧
  (∀ (s : State) (id : Nat) (v : Byte), id ∉ [0, 1, 2, 3, 4, 5, 7] →
    s.regRead id = .error .invalidRegisterId ∧ s.regWrite id v = .error .invalidRegisterId) ∧
  ∀ s t : State, step s = .next t → t.status ≠ .faulted .invalidRegisterId

/-- `10_state.md` R15. -/
def Obligations.PairsFollowTheirRegisters : Prop :=
  ∀ (s : State) (p : PairId) (hi lo : Reg),
    (p, hi, lo) ∈ [(PairId.bc, Reg.b, Reg.c), (.de, .d, .e), (.hl, .h, .l)] →
    (s.readPair p).toNat = (s.readReg hi).toNat * 256 + (s.readReg lo).toNat ∧
    ∀ u v : Byte,
      (((s.writeReg hi u).writeReg lo v).readPair p).toNat = u.toNat * 256 + v.toNat ∧
      (((s.writeReg lo v).writeReg hi u).readPair p).toNat = u.toNat * 256 + v.toNat

/-- `40_operands_and_flags.md` R71, and that the handlers' operand read is this one. -/
def Obligations.SourceFieldResolution : Prop :=
  ∀ (s : State) (f : BitVec 3),
    (f = 6 → s.readField f =
      .ok (s.memRead (BitVec.ofNat 16 ((s.readReg .h).toNat * 256 + (s.readReg .l).toNat)))) ∧
    (∀ r : Reg, f.toNat = r.id → s.readField f = .ok (s.readReg r)) ∧
    s.readField f = .ok (s.readOperand (Operand.ofField f))

/-- `40_operands_and_flags.md` section 1, destination resolution. -/
def Obligations.DestinationFieldResolution : Prop :=
  ∀ (s : State) (f : BitVec 3) (v : Byte),
    (f = 6 → s.writeField f v =
      .ok (s.memWrite (BitVec.ofNat 16 ((s.readReg .h).toNat * 256 + (s.readReg .l).toNat)) v)) ∧
    (∀ r : Reg, f.toNat = r.id → s.writeField f v = .ok (s.writeReg r v)) ∧
    s.writeField f v = .ok (s.writeOperand (Operand.ofField f) v)

/-- `40_operands_and_flags.md` R76 to R79. -/
def Obligations.ZeroSignParityDerivation : Prop :=
  ∀ (r : Byte) (f : Flags), ZeroSignParityOf r (setZSP r f) ∧ (setZSP r f).carry = f.carry ∧
    (setZSP r f).auxiliaryCarry = f.auxiliaryCarry

/-- Decoding inverts encoding. The field positions and the immediate opcodes are the spec's own decisions D3, D4 and D5
(log entries 3, 4 and 5). -/
def Obligations.DecodeInvertsEncode : Prop :=
  ∀ (i : Instr) (rest : List Byte), i.wellFormed = true → decode (encode i ++ rest) = .ok (i, rest)

/-- Encoding inverts decoding, so that no bit of a word is ignored (`30_encoding.md` sections 3 to 7). The immediate opcodes,
the field positions and that 0x36 decodes are the spec's own decisions D3, D4 and D5 (log entries 3, 4 and 5). -/
def Obligations.EncodeInvertsDecode : Prop :=
  ∀ (bs rest : List Byte) (i : Instr), decode bs = .ok (i, rest) → i.wellFormed = true ∧ encode i ++ rest = bs

/-- The encodings the source itself spells out (`95_test_vectors.md` S11). -/
def Obligations.SourceSpelledWords : Prop :=
  decode [0b01110110] = .ok (.hlt, []) ∧ decode [0b00111110, 0x05] = .ok (.mvi (.reg .a) 0x05, []) ∧
  decode [0b00000110, 0x03] = .ok (.mvi (.reg .b) 0x03, []) ∧ decode [0b10000000] = .ok (.add (.reg .b), []) ∧
  decode [0b00111100] = .ok (.inr (.reg .a), []) ∧ decode [0b11001101] = .error (.unimplementedOpcode 0xCD)

/-- `30_encoding.md` section 1: fetch, advance, dispatch (the spec's own decision D11, log entry 10). -/
def Obligations.StepRunsDecodedInstruction : Prop :=
  ∀ (s : State) (i : Instr) (rest : List Byte), s.status = .running → i.wellFormed = true →
    decode (s.readBytes s.pc 2) = .ok (i, rest) →
    step s = exec i (s.setPc (s.pc + BitVec.ofNat 16 (encode i).length))

/-- When a run ends, and how. Which bytes fault is the spec's own decision D3 (56 of the 96) and that 0x36 runs its D5; the
status representation is its D8, D9 (log entries 3, 5, 8 and 9). -/
def Obligations.RunningStepOutcome : Prop :=
  ∀ s : State, s.status = .running → ∃ t, step s = .next t ∧
    (s.memRead s.pc = 0x76 → t.status = .halted) ∧
    (s.memRead s.pc ∈ undefinedOpcodes → t.status = .faulted (.unimplementedOpcode (s.memRead s.pc))) ∧
    (s.memRead s.pc ≠ 0x76 → s.memRead s.pc ∉ undefinedOpcodes → t.status = .running)

/-- `Step` is enabled only while the status is Running (the spec's own decision D8, D9; log entries 8 and 9). -/
def Obligations.EndedRunTakesNoStep : Prop :=
  ∀ s : State, (s.status = .halted → step s = .fault .runHalted) ∧
    (∀ c, s.status = .faulted c → step s = .fault (.runFaulted c)) ∧
    (s.status = .running → ∃ t, step s = .next t)

/-- `10_state.md` section 4 and `30_encoding.md` section 6. That the ALU immediate forms are the bytes with low bits 110
is the spec's own decision D3, and that 0x36 runs, with its immediate, its D5 (log entries 3 and 5). -/
def Obligations.ProgramCounterAdvance : Prop :=
  ∀ s t : State, step s = .next t →
    t.pc = s.pc + (if (s.memRead s.pc).toNat % 8 = 6 ∧
      ((s.memRead s.pc).toNat / 64 = 0 ∨ (s.memRead s.pc).toNat / 64 = 3) then 2 else 1)

/-- `60_exceptions.md` sections 1 and 2. The set of bytes rests on the spec's own decision D3 and the status on D9 (log
entries 3 and 9). -/
def Obligations.UndefinedOpcodeFaults : Prop :=
  ∀ s : State, s.status = .running → s.memRead s.pc ∈ undefinedOpcodes →
    ∃ t, step s = .next t ∧ t.status = .faulted (.unimplementedOpcode (s.memRead s.pc)) ∧ t.pc = s.pc + 1 ∧
      (∀ q, t.readReg q = s.readReg q) ∧ t.sp = s.sp ∧ t.flags = s.flags ∧ ∀ x, t.memRead x = s.memRead x

/-- `60_exceptions.md` section 1, `IllegalMemoryToMemoryMove`. The status is the spec's own decision D9 (log entry 9). -/
def Obligations.MemoryToMemoryMoveRejected : Prop :=
  (∀ s : State, ∃ t, exec (.mov .mem .mem) s = .next t ∧ t.status = .faulted .illegalMemoryToMemoryMove ∧
    (∀ q, t.readReg q = s.readReg q) ∧ t.pc = s.pc ∧ t.sp = s.sp ∧ t.flags = s.flags ∧
    ∀ x, t.memRead x = s.memRead x) ∧
  (∀ s t : State, step s = .next t → t.status ≠ .faulted .illegalMemoryToMemoryMove) ∧
  ∀ op imm : Byte, Operand.ofField (dstField op) = .mem → Operand.ofField (srcField op) = .mem →
    op.toNat / 64 = 1 → decodeOp op imm = some .hlt

/-- `MOV r1,r2` (`41_data_transfer.md`). Which field is the destination is the spec's own decision D4 (log entry 4). -/
def Obligations.MovRegisterToRegister : Prop :=
  ∀ (r1 r2 : Reg) (s : State),
    RunsAs s [BitVec.ofNat 8 (0x40 + 8 * r1.id + r2.id)] (.mov (.reg r1) (.reg r2)) ∧
    ∃ t, exec (.mov (.reg r1) (.reg r2)) s = .next t ∧ t.readReg r1 = s.readReg r2 ∧ t.flags = s.flags ∧
      KeepsAllBut [r1] s t

/-- `MOV r,M` (`41_data_transfer.md`), the address taken before the write. The field positions are the spec's own decision
D4 (log entry 4). -/
def Obligations.MovMemoryToRegister : Prop :=
  ∀ (r : Reg) (s : State),
    RunsAs s [BitVec.ofNat 8 (0x46 + 8 * r.id)] (.mov (.reg r) .mem) ∧
    ∃ t, exec (.mov (.reg r) .mem) s = .next t ∧ t.readReg r = s.memRead (s.readPair .hl) ∧ t.flags = s.flags ∧
      KeepsAllBut [r] s t

/-- `MOV M,r` (`41_data_transfer.md`). The field positions are the spec's own decision D4 (log entry 4). -/
def Obligations.MovRegisterToMemory : Prop :=
  ∀ (r : Reg) (s : State),
    RunsAs s [BitVec.ofNat 8 (0x70 + r.id)] (.mov .mem (.reg r)) ∧
    ∃ t, exec (.mov .mem (.reg r)) s = .next t ∧ t.memRead (s.readPair .hl) = s.readReg r ∧ t.flags = s.flags ∧
      KeepsAllButByte (s.readPair .hl) s t

/-- `41_data_transfer.md` R93. -/
def Obligations.MviToRegister : Prop :=
  ∀ (r : Reg) (v : Byte) (s : State),
    RunsAs s [BitVec.ofNat 8 (0x06 + 8 * r.id), v] (.mvi (.reg r) v) ∧
    ∃ t, exec (.mvi (.reg r) v) s = .next t ∧ t.readReg r = v ∧ t.flags = s.flags ∧ KeepsAllBut [r] s t

/-- `MVI M,imm` (`41_data_transfer.md`). That 0x36 executes is the spec's own decision D5 (log entry 5). -/
def Obligations.MviToMemory : Prop :=
  ∀ (v : Byte) (s : State),
    RunsAs s [0x36, v] (.mvi .mem v) ∧
    ∃ t, exec (.mvi .mem v) s = .next t ∧ t.memRead (s.readPair .hl) = v ∧ t.flags = s.flags ∧
      KeepsAllButByte (s.readPair .hl) s t

/-- `42_increment_decrement.md` R95. -/
def Obligations.InrRegister : Prop :=
  ∀ (r : Reg) (s : State),
    RunsAs s [BitVec.ofNat 8 (0x04 + 8 * r.id)] (.inr (.reg r)) ∧
    ∃ t, exec (.inr (.reg r)) s = .next t ∧ IsIncrement (s.readReg r) s.flags (t.readReg r) t.flags ∧
      KeepsAllBut [r] s t

/-- `42_increment_decrement.md` R96. -/
def Obligations.InrMemory : Prop :=
  ∀ s : State,
    RunsAs s [0x34] (.inr .mem) ∧
    ∃ t, exec (.inr .mem) s = .next t ∧
      IsIncrement (s.memRead (s.readPair .hl)) s.flags (t.memRead (s.readPair .hl)) t.flags ∧
      KeepsAllButByte (s.readPair .hl) s t

/-- `42_increment_decrement.md` R97. -/
def Obligations.DcrRegister : Prop :=
  ∀ (r : Reg) (s : State),
    RunsAs s [BitVec.ofNat 8 (0x05 + 8 * r.id)] (.dcr (.reg r)) ∧
    ∃ t, exec (.dcr (.reg r)) s = .next t ∧ IsDecrement (s.readReg r) s.flags (t.readReg r) t.flags ∧
      KeepsAllBut [r] s t

/-- `42_increment_decrement.md` R98. -/
def Obligations.DcrMemory : Prop :=
  ∀ s : State,
    RunsAs s [0x35] (.dcr .mem) ∧
    ∃ t, exec (.dcr .mem) s = .next t ∧
      IsDecrement (s.memRead (s.readPair .hl)) s.flags (t.memRead (s.readPair .hl)) t.flags ∧
      KeepsAllButByte (s.readPair .hl) s t

/-- `ADD r` and `ADD M` (`43_arithmetic.md`). Unsigned carry is the spec's own decision D2 (log entry 2). -/
def Obligations.AddToAccumulator : Prop :=
  ∀ s : State,
    (∀ r : Reg, RunsAs s [BitVec.ofNat 8 (0x80 + r.id)] (.add (.reg r)) ∧
      ∃ t, exec (.add (.reg r)) s = .next t ∧ AddedToA s (s.readReg r) false t) ∧
    RunsAs s [0x86] (.add .mem) ∧
    ∃ t, exec (.add .mem) s = .next t ∧ AddedToA s (s.memRead (s.readPair .hl)) false t

/-- `ADC r` and `ADC M` (`43_arithmetic.md`). Unsigned carry and the untruncated carry-in are the spec's own decisions D2
and D6 (log entries 2 and 6). -/
def Obligations.AddWithCarryToAccumulator : Prop :=
  ∀ s : State,
    (∀ r : Reg, RunsAs s [BitVec.ofNat 8 (0x88 + r.id)] (.adc (.reg r)) ∧
      ∃ t, exec (.adc (.reg r)) s = .next t ∧ AddedToA s (s.readReg r) s.flags.carry t) ∧
    RunsAs s [0x8E] (.adc .mem) ∧
    ∃ t, exec (.adc .mem) s = .next t ∧ AddedToA s (s.memRead (s.readPair .hl)) s.flags.carry t

/-- `SUB r` and `SUB M` (`43_arithmetic.md`). Unsigned carry is the spec's own decision D2 (log entry 2). -/
def Obligations.SubtractFromAccumulator : Prop :=
  ∀ s : State,
    (∀ r : Reg, RunsAs s [BitVec.ofNat 8 (0x90 + r.id)] (.sub (.reg r)) ∧
      ∃ t, exec (.sub (.reg r)) s = .next t ∧ SubtractedFromA s (s.readReg r) false t) ∧
    RunsAs s [0x96] (.sub .mem) ∧
    ∃ t, exec (.sub .mem) s = .next t ∧ SubtractedFromA s (s.memRead (s.readPair .hl)) false t

/-- `SBB r` and `SBB M` (`43_arithmetic.md`). Unsigned carry and the untruncated carry-in are the spec's own decisions D2
and D6 (log entries 2 and 6). -/
def Obligations.SubtractWithBorrowFromAccumulator : Prop :=
  ∀ s : State,
    (∀ r : Reg, RunsAs s [BitVec.ofNat 8 (0x98 + r.id)] (.sbb (.reg r)) ∧
      ∃ t, exec (.sbb (.reg r)) s = .next t ∧ SubtractedFromA s (s.readReg r) s.flags.carry t) ∧
    RunsAs s [0x9E] (.sbb .mem) ∧
    ∃ t, exec (.sbb .mem) s = .next t ∧ SubtractedFromA s (s.memRead (s.readPair .hl)) s.flags.carry t

/-- `ADI` and `ACI` (`43_arithmetic.md`). The opcodes are the spec's own decision D3, unsigned carry D2, the carry-in D6
(log entries 2, 3 and 6). -/
def Obligations.AddImmediates : Prop :=
  ∀ (v : Byte) (s : State),
    (RunsAs s [0xC6, v] (.adi v) ∧ ∃ t, exec (.adi v) s = .next t ∧ AddedToA s v false t) ∧
    (RunsAs s [0xCE, v] (.aci v) ∧ ∃ t, exec (.aci v) s = .next t ∧ AddedToA s v s.flags.carry t)

/-- `SUI` and `SBI` (`43_arithmetic.md`). The opcodes are the spec's own decision D3, unsigned borrow D2, the borrow-in D6
(log entries 2, 3 and 6). -/
def Obligations.SubtractImmediates : Prop :=
  ∀ (v : Byte) (s : State),
    (RunsAs s [0xD6, v] (.sui v) ∧ ∃ t, exec (.sui v) s = .next t ∧ SubtractedFromA s v false t) ∧
    (RunsAs s [0xDE, v] (.sbi v) ∧ ∃ t, exec (.sbi v) s = .next t ∧ SubtractedFromA s v s.flags.carry t)

/-- `44_logical_compare.md` R112 and R113. -/
def Obligations.AndIntoAccumulator : Prop :=
  ∀ s : State,
    (∀ r : Reg, RunsAs s [BitVec.ofNat 8 (0xA0 + r.id)] (.ana (.reg r)) ∧
      ∃ t, exec (.ana (.reg r)) s = .next t ∧ LogicalIntoA s (s.readReg .a &&& (s.readReg r)) t) ∧
    RunsAs s [0xA6] (.ana .mem) ∧
    ∃ t, exec (.ana .mem) s = .next t ∧ LogicalIntoA s (s.readReg .a &&& (s.memRead (s.readPair .hl))) t

/-- `44_logical_compare.md` R115 and R116. -/
def Obligations.ExclusiveOrIntoAccumulator : Prop :=
  ∀ s : State,
    (∀ r : Reg, RunsAs s [BitVec.ofNat 8 (0xA8 + r.id)] (.xra (.reg r)) ∧
      ∃ t, exec (.xra (.reg r)) s = .next t ∧ LogicalIntoA s (s.readReg .a ^^^ (s.readReg r)) t) ∧
    RunsAs s [0xAE] (.xra .mem) ∧
    ∃ t, exec (.xra .mem) s = .next t ∧ LogicalIntoA s (s.readReg .a ^^^ (s.memRead (s.readPair .hl))) t

/-- `44_logical_compare.md` R118 and R119. -/
def Obligations.OrIntoAccumulator : Prop :=
  ∀ s : State,
    (∀ r : Reg, RunsAs s [BitVec.ofNat 8 (0xB0 + r.id)] (.ora (.reg r)) ∧
      ∃ t, exec (.ora (.reg r)) s = .next t ∧ LogicalIntoA s (s.readReg .a ||| (s.readReg r)) t) ∧
    RunsAs s [0xB6] (.ora .mem) ∧
    ∃ t, exec (.ora .mem) s = .next t ∧ LogicalIntoA s (s.readReg .a ||| (s.memRead (s.readPair .hl))) t

/-- `ANI`, `XRI` and `ORI` (`44_logical_compare.md`). The opcodes are the spec's own decision D3 (log entry 3). -/
def Obligations.LogicalImmediates : Prop :=
  ∀ (v : Byte) (s : State),
    (RunsAs s [0xE6, v] (.ani v) ∧ ∃ t, exec (.ani v) s = .next t ∧ LogicalIntoA s (s.readReg .a &&& v) t) ∧
    (RunsAs s [0xEE, v] (.xri v) ∧ ∃ t, exec (.xri v) s = .next t ∧ LogicalIntoA s (s.readReg .a ^^^ v) t) ∧
    (RunsAs s [0xF6, v] (.ori v) ∧ ∃ t, exec (.ori v) s = .next t ∧ LogicalIntoA s (s.readReg .a ||| v) t)

/-- `CMP r` and `CMP M` (`44_logical_compare.md`). The unsigned comparison is the spec's own decision D2 (log entry 2). -/
def Obligations.CompareWithAccumulator : Prop :=
  ∀ s : State,
    (∀ r : Reg, RunsAs s [BitVec.ofNat 8 (0xB8 + r.id)] (.cmp (.reg r)) ∧
      ∃ t, exec (.cmp (.reg r)) s = .next t ∧ ComparedWithA s (s.readReg r) t) ∧
    RunsAs s [0xBE] (.cmp .mem) ∧
    ∃ t, exec (.cmp .mem) s = .next t ∧ ComparedWithA s (s.memRead (s.readPair .hl)) t

/-- `CPI` (`44_logical_compare.md`). The opcode is the spec's own decision D3 and the unsigned comparison D2 (log entries 2
and 3). -/
def Obligations.CompareImmediate : Prop :=
  ∀ (v : Byte) (s : State),
    (RunsAs s [0xFE, v] (.cpi v) ∧ ∃ t, exec (.cpi v) s = .next t ∧ ComparedWithA s v t)

/-- `HLT` (`45_system_and_control.md`). The status latch is the spec's own decision D8 and the `pc` value its inference (log
entry 8). -/
def Obligations.HaltEndsTheRun : Prop :=
  ∀ s : State, RunsAs s [0x76] .hlt ∧ ∃ t, exec .hlt s = .next t ∧ t.status = .halted ∧ t.pc = s.pc ∧
    t.sp = s.sp ∧ t.flags = s.flags ∧ (∀ q, t.readReg q = s.readReg q) ∧ ∀ x, t.memRead x = s.memRead x

/-- The source's round-trip property (`95_test_vectors.md` S3). In its last clause the operand is A, which the addition
changes. Unsigned borrow is the spec's own decision D2 (log entry 2). -/
def Obligations.AddThenSubtractRestores : Prop :=
  (∀ (s : State) (r : Reg), r ≠ .a → ∃ t u, exec (.add (.reg r)) s = .next t ∧ exec (.sub (.reg r)) t = .next u ∧
    Restored s (s.readReg r) t u) ∧
  (∀ s : State, ∃ t u, exec (.add .mem) s = .next t ∧ exec (.sub .mem) t = .next u ∧
    Restored s (s.memRead (s.readPair .hl)) t u) ∧
  (∀ (s : State) (x : Byte), ∃ t u, exec (.adi x) s = .next t ∧ exec (.sui x) t = .next u ∧ Restored s x t u) ∧
  ∀ s : State, ∃ t u, exec (.add (.reg .a)) s = .next t ∧ exec (.sub (.reg .a)) t = .next u ∧ u.readReg .a = 0 ∧
    IsDifference (t.readReg .a) (t.readReg .a) false 0 u.flags

/-- The corner that separates the spec's own decision D6 from the truncated reading (log entry 6). -/
def Obligations.CarryInIsNeverLost : Prop :=
  ∀ s : State, s.flags.carry = true →
    (∀ i ∈ [Instr.aci 0xFF, .sbi 0xFF], ∃ t, exec i s = .next t ∧ t.readReg .a = s.readReg .a ∧
      t.flags.carry = true ∧ t.flags.auxiliaryCarry = true) ∧
    ∀ r : Reg, s.readReg r = 0xFF → ∀ i ∈ [Instr.adc (.reg r), .sbb (.reg r)], ∃ t, exec i s = .next t ∧
      t.readReg .a = s.readReg .a ∧ t.flags.carry = true ∧ t.flags.auxiliaryCarry = true

/-- The idioms with A as both operands (`95_test_vectors.md` S6). Unsigned borrow and the borrow-in are the spec's own
decisions D2 and D6 (log entries 2 and 6). -/
def Obligations.AccumulatorWithItself : Prop :=
  ∀ s : State,
    (∃ t, exec (.cmp (.reg .a)) s = .next t ∧ t.readReg .a = s.readReg .a ∧
      t.flags = ⟨true, false, true, false, false⟩) ∧
    (∀ i ∈ [Instr.sub (.reg .a), .xra (.reg .a)], ∃ t, exec i s = .next t ∧ t.readReg .a = 0 ∧
      t.flags = ⟨true, false, true, false, false⟩) ∧
    (∀ i ∈ [Instr.ana (.reg .a), .ora (.reg .a)], ∃ t, exec i s = .next t ∧ t.readReg .a = s.readReg .a ∧
      t.flags.carry = false ∧ t.flags.auxiliaryCarry = false) ∧
    ∃ t, exec (.sbb (.reg .a)) s = .next t ∧
      (s.flags.carry = false → t.readReg .a = 0 ∧ t.flags = ⟨true, false, true, false, false⟩) ∧
      (s.flags.carry = true → t.readReg .a = 0xFF ∧ t.flags = ⟨false, true, true, true, true⟩)

/-- `10_state.md` section 6: only `carry` is ever read. The rule is marked as the spec's inference. -/
def Obligations.OnlyCarryIsEverRead : Prop :=
  ∀ s s' : State, AgreeButUnreadFlags s s' → s.status = .running →
    ∃ t t', step s = .next t ∧ step s' = .next t' ∧ AgreeButUnreadFlags t t'

/-- `10_state.md` section 5: no instruction writes `sp`. -/
def Obligations.StackPointerNeverChanges : Prop :=
  ∀ s t : State, step s = .next t → t.sp = s.sp

/-- `20_memory.md` section 2, the list of accesses. The storing opcodes rest on the spec's own decisions D4 and D5 (log
entries 4 and 5). -/
def Obligations.StoresGoToHLAlone : Prop :=
  ∀ (s t : State) (x : Word), step s = .next t → t.memRead x ≠ s.memRead x →
    x = s.readPair .hl ∧ s.memRead s.pc ∈ storingOpcodes

/-- The `-` and `0` entries of `10_state.md` section 6's table. That 56 of the undefined bytes fault and that 0xE6, 0xEE and
0xF6 are the logical immediates is the spec's own decision D3 (log entry 3). -/
def Obligations.FlagsLeftAlone : Prop :=
  ∀ s t : State, step s = .next t →
    (((s.memRead s.pc).toNat / 64 = 1 ∨ s.memRead s.pc &&& 0xC7 = 0x06 ∨ s.memRead s.pc ∈ undefinedOpcodes) →
      t.flags = s.flags) ∧
    (s.memRead s.pc &&& 0xC6 = 0x04 → t.flags.carry = s.flags.carry) ∧
    ((0xA0 ≤ (s.memRead s.pc).toNat ∧ (s.memRead s.pc).toNat < 0xB8 ∨ s.memRead s.pc ∈ [0xE6, 0xEE, 0xF6]) →
      t.flags.carry = false ∧ t.flags.auxiliaryCarry = false)

/-- `20_memory.md` section 7. The rule is marked as the spec's inference; that 0x70 + r is `MOV M,r` is its decision D4 and
that 0x36 executes its D5 (log entries 4 and 5). -/
def Obligations.StoreSeenByTheNextFetch : Prop :=
  ∀ s : State, s.status = .running →
    (∀ r : Reg, s.memRead s.pc = BitVec.ofNat 8 (0x70 + r.id) →
      ∃ t, step s = .next t ∧ t.pc = s.pc + 1 ∧ StoredAndFetched s (s.readReg r) t) ∧
    (s.memRead s.pc = 0x36 →
      ∃ t, step s = .next t ∧ t.pc = s.pc + 2 ∧ StoredAndFetched s (s.memRead (s.pc + 1)) t) ∧
    (s.memRead s.pc = 0x34 →
      ∃ t, step s = .next t ∧ t.pc = s.pc + 1 ∧ StoredAndFetched s (s.memRead (s.readPair .hl) + 1) t) ∧
    (s.memRead s.pc = 0x35 →
      ∃ t, step s = .next t ∧ t.pc = s.pc + 1 ∧ StoredAndFetched s (s.memRead (s.readPair .hl) - 1) t)

/-- `30_encoding.md` section 5. The field positions are the spec's own decision D4 (log entry 4). -/
def Obligations.SelfMoveChangesOnlyPc : Prop :=
  ∀ (r : Reg) (s : State), exec (.mov (.reg r) (.reg r)) s = .next s ∧
    (Fetches s [BitVec.ofNat 8 (0x40 + 9 * r.id)] → step s = .next (s.setPc (s.pc + 1)))

/-- `93_implementation_defined.md` U12: the block alone is total (log entry 10). -/
def Obligations.DispatchIsTotal : Prop :=
  ∀ (op : Byte) (s : State), ∃ t, dispatch op s = .next t ∧ (t.pc = s.pc ∨ t.pc = s.pc + 1)

/-- `70_reset_and_hazards.md` section 1, `LoadImage`. The refusal is the spec's own decision D12 (log entry 12). -/
def Obligations.ImageIsCopiedFromAddressZero : Prop :=
  ∀ (image form : List Byte) (s : State),
    (image.getLast? = some 0x76 ∧ form = image ∨ image.getLast? ≠ some 0x76 ∧ form = image ++ [0x76]) →
    (form.length ≤ 65536 → ∃ t, s.loadImage image = .next t ∧
      (∀ k (h : k < form.length), t.memRead (BitVec.ofNat 16 k) = form[k]) ∧
      (∀ x : Word, form.length ≤ x.toNat → t.memRead x = s.memRead x) ∧
      (∀ q, t.readReg q = s.readReg q) ∧ t.flags = s.flags ∧ t.pc = s.pc ∧ t.sp = s.sp ∧ t.status = s.status) ∧
    (65536 < form.length → s.loadImage image = .refused .imageTooLong)
end

