-- ==== Sys2Proof/Laws/Decode.lean ====
section
/-! SUPPORT. What the classifier says of each opcode byte (`30_encoding.md` R52 to R66). -/

namespace Sys2Proof

/-- Whether a byte is classified does not depend on the byte after it (`30_encoding.md` R64, R66). -/
theorem decodeOp_isNone_imm (op imm : Byte) : (decodeOp op imm).isNone = (decodeOp op 0).isNone := by
  unfold decodeOp
  split_ifs <;> rfl

/-- The unclassified bytes are the 96 of `30_encoding.md` R62. -/
theorem decodeOp_eq_none (op imm : Byte) : decodeOp op imm = none ↔ op ∈ undefinedOpcodes := by
  have h : ∀ op : BitVec 8, (decodeOp op 0).isNone = decide (op ∈ undefinedOpcodes) := by decide +kernel
  rw [← Option.isNone_iff_eq_none, decodeOp_isNone_imm, h, decide_eq_true_iff]

/-- An undefined byte begins no two-byte instruction (`30_encoding.md` R64). -/
theorem hasImm_undefined {op : Byte} (h : op ∈ undefinedOpcodes) : hasImm op = false := by
  have : ∀ op : BitVec 8, op ∈ undefinedOpcodes → hasImm op = false := by decide +kernel
  exact this op h

/-- `HLT` is read from 0x76 and from no other byte (`30_encoding.md` R53). -/
theorem decodeOp_eq_hlt (op imm : Byte) : decodeOp op imm = some .hlt ↔ op = 0x76 := by
  constructor
  · intro h
    by_contra hne
    unfold decodeOp at h
    simp only [hne, if_false] at h
    split_ifs at h <;> simp [aluInstr, aluImmInstr] at h <;> split at h <;> simp at h
  · rintro rfl
    rfl

/-- The classifier answers no `MOV` between two memory operands (`30_encoding.md` R53, `40_operands_and_flags.md`
R73). -/
theorem decodeOp_wellFormed {op imm : Byte} {i : Instr} (h : decodeOp op imm = some i) : i.wellFormed = true := by
  have hmov : ∀ op : BitVec 8, op ≠ 0x76 → op &&& 0b11000000 = 0x40 →
      (Instr.mov (.ofField (dstField op)) (.ofField (srcField op))).wellFormed = true := by decide +kernel
  have halu : ∀ f o, (aluInstr f o).wellFormed = true := by
    intro f o; unfold aluInstr; split <;> rfl
  have himm : ∀ f v, (aluImmInstr f v).wellFormed = true := by
    intro f v; unfold aluImmInstr; split <;> rfl
  unfold decodeOp at h
  split_ifs at h with h0 h1 <;> cases h
  · rfl
  · exact hmov op h0 h1
  · rfl
  · rfl
  · rfl
  · exact halu _ _
  · exact himm _ _

/-- An immediate-form instruction has the opcode of its selector and carries the immediate it was given. -/
theorem aluImmInstr_encoding (f : BitVec 3) (imm : Byte) :
    (aluImmInstr f imm).opcode = (aluImmInstr f 0).opcode ∧ (aluImmInstr f imm).immediate = some imm := by
  unfold aluImmInstr
  split <;> exact ⟨rfl, rfl⟩

/-- A register/memory-form ALU instruction carries no immediate. -/
theorem aluInstr_immediate (f : BitVec 3) (o : Operand) : (aluInstr f o).immediate = none := by
  unfold aluInstr
  split <;> rfl

/-- The instruction a byte is classified as has that byte for its opcode, and the immediate byte where there is one
(`30_encoding.md` R53 to R60). -/
theorem decodeOp_encoding {op imm : Byte} {i : Instr} (h : decodeOp op imm = some i) :
    i.opcode = op ∧ i.immediate = if hasImm op then some imm else none := by
  have hmov : ∀ op : BitVec 8, op ≠ 0x76 → op &&& 0b11000000 = 0x40 →
      (Instr.mov (.ofField (dstField op)) (.ofField (srcField op))).opcode = op ∧ hasImm op = false := by
    decide +kernel
  have hmvi : ∀ op : BitVec 8, op &&& 0b11000111 = 0b00000110 →
      (Instr.mvi (.ofField (dstField op)) 0).opcode = op ∧ hasImm op = true := by decide +kernel
  have hinr : ∀ op : BitVec 8, op &&& 0b11000110 = 0b00000100 → op.getLsbD 0 = false →
      (Instr.inr (.ofField (dstField op))).opcode = op ∧ hasImm op = false := by decide +kernel
  have hdcr : ∀ op : BitVec 8, op &&& 0b11000110 = 0b00000100 → ¬ op.getLsbD 0 = false →
      (Instr.dcr (.ofField (dstField op))).opcode = op ∧ hasImm op = false := by decide +kernel
  have halu : ∀ op : BitVec 8, op &&& 0b11000000 = 0b10000000 →
      (aluInstr (dstField op) (.ofField (srcField op))).opcode = op ∧ hasImm op = false := by decide +kernel
  have himm : ∀ op : BitVec 8, op &&& 0b11000111 = 0b11000110 →
      (aluImmInstr (dstField op) 0).opcode = op ∧ hasImm op = true := by decide +kernel
  unfold decodeOp at h
  split_ifs at h with h0 h1 h2 h3 h4 h5 h6 <;> cases h
  · subst h0; exact ⟨rfl, rfl⟩
  · exact ⟨(hmov op h0 h1).1, by rw [(hmov op h0 h1).2]; rfl⟩
  · exact ⟨(hmvi op h2).1, by rw [(hmvi op h2).2]; rfl⟩
  · exact ⟨(hinr op h3 h4).1, by rw [(hinr op h3 h4).2]; rfl⟩
  · exact ⟨(hdcr op h3 h4).1, by rw [(hdcr op h3 h4).2]; rfl⟩
  · exact ⟨(halu op h5).1, by rw [(halu op h5).2, aluInstr_immediate]; rfl⟩
  · exact ⟨(aluImmInstr_encoding _ _).1.trans (himm op h6).1,
      by rw [(himm op h6).2, (aluImmInstr_encoding _ _).2]; rfl⟩

end Sys2Proof
end

