-- ==== Sys2Proof/Laws/Flags.lean ====
section
/-! SUPPORT. What the flag functions answer, once each (`40_operands_and_flags.md` R76 to R88). -/

namespace Sys2Proof.Machine

section ZeroSignParity
variable (r : Byte) (f : Flags)

@[simp] theorem setZSP_zero : (setZSP r f).zero = (r == 0) := rfl
@[simp] theorem setZSP_sign : (setZSP r f).sign = r.getLsbD 7 := rfl
@[simp] theorem setZSP_parity : (setZSP r f).parity = (popcount r % 2 == 0) := rfl
@[simp] theorem setZSP_carry : (setZSP r f).carry = f.carry := rfl
@[simp] theorem setZSP_auxiliaryCarry : (setZSP r f).auxiliaryCarry = f.auxiliaryCarry := rfl

@[simp] theorem logicFlags_carry : (logicFlags r f).carry = false := rfl
@[simp] theorem logicFlags_auxiliaryCarry : (logicFlags r f).auxiliaryCarry = false := rfl
@[simp] theorem logicFlags_zero : (logicFlags r f).zero = (r == 0) := rfl
@[simp] theorem logicFlags_sign : (logicFlags r f).sign = r.getLsbD 7 := rfl
@[simp] theorem logicFlags_parity : (logicFlags r f).parity = (popcount r % 2 == 0) := rfl

/-- The logical flags do not depend on the old ones. -/
theorem logicFlags_congr (g : Flags) : logicFlags r f = logicFlags r g := rfl

end ZeroSignParity

section Units
variable (a b : Byte) (c : Bool) (f : Flags)

theorem addFlags_result_toNat : (addFlags a b c).1.toNat = (a.toNat + b.toNat + c.toNat) % 256 := by
  simp only [addFlags, BitVec.toNat_ofNat]
  omega

/-- The addition unit's result is the wrapped sum. -/
theorem addFlags_result : (addFlags a b c).1 = a + b + BitVec.ofNat 8 c.toNat := by
  apply BitVec.eq_of_toNat_eq
  rw [addFlags_result_toNat]
  simp only [BitVec.toNat_add, BitVec.toNat_ofNat]
  omega

theorem addFlags_flags :
    (addFlags a b c).2 = setZSP (addFlags a b c).1
      ⟨false, false, false, decide (a.toNat + b.toNat + c.toNat > 255),
        decide (lowNibble a + lowNibble b + c.toNat > 15)⟩ := rfl

/-- The subtraction unit's result is the wrapped difference. -/
theorem subFlags_result : (subFlags a b c).1 = a - b - BitVec.ofNat 8 c.toNat := by
  have ha := a.isLt
  have hb := b.isLt
  have hc : c.toNat ≤ 1 := by cases c <;> decide
  apply BitVec.eq_of_toNat_eq
  simp only [subFlags, BitVec.toNat_ofInt, BitVec.toNat_sub, BitVec.toNat_ofNat]
  omega

theorem subFlags_result_toNat :
    ((subFlags a b c).1.toNat : Int) = ((a.toNat : Int) - b.toNat - c.toNat) % 256 := by
  simp only [subFlags, BitVec.toNat_ofInt]
  omega

theorem subFlags_flags :
    (subFlags a b c).2 = setZSP (subFlags a b c).1
      ⟨false, false, false, decide (b.toNat + c.toNat > a.toNat),
        decide (lowNibble a < lowNibble b + c.toNat)⟩ := rfl

@[simp] theorem incFlags_carry : (incFlags a f).2.carry = f.carry := rfl
@[simp] theorem decFlags_carry : (decFlags a f).2.carry = f.carry := rfl

theorem incFlags_result : (incFlags a f).1 = a + 1 := by
  simp [incFlags, addFlags_result]

theorem decFlags_result : (decFlags a f).1 = a - 1 := by
  simp [decFlags, subFlags_result]

/-- `INR` and `DCR` read nothing of the old flags but the carry they keep. -/
theorem incFlags_congr {f g : Flags} (h : f.carry = g.carry) : incFlags a f = incFlags a g := by
  simp [incFlags, h]

theorem decFlags_congr {f g : Flags} (h : f.carry = g.carry) : decFlags a f = decFlags a g := by
  simp [decFlags, h]

end Units

end Sys2Proof.Machine
end

