-- ==== Sys2Proof/Laws/State.lean ====
section
/-! SUPPORT. The small lemmas of the state's updates: one per field per update. -/

namespace Sys2Proof.Machine

theorem memory_ext {m n : Memory} (h : m.cells = n.cells) : m = n := by
  cases m; cases n; exact congrArg _ h

section Fields
variable (s : State) (r : Reg) (v : Byte) (w : Word) (f : Flags) (c : FatalCondition)

@[simp] theorem writeReg_pc : (s.writeReg r v).pc = s.pc := by cases r <;> rfl
@[simp] theorem writeReg_sp : (s.writeReg r v).sp = s.sp := by cases r <;> rfl
@[simp] theorem writeReg_flags : (s.writeReg r v).flags = s.flags := by cases r <;> rfl
@[simp] theorem writeReg_mem : (s.writeReg r v).mem = s.mem := by cases r <;> rfl
@[simp] theorem writeReg_status : (s.writeReg r v).status = s.status := by cases r <;> rfl

@[simp] theorem memWrite_regs : (s.memWrite w v).regs = s.regs := rfl
@[simp] theorem memWrite_pc : (s.memWrite w v).pc = s.pc := rfl
@[simp] theorem memWrite_sp : (s.memWrite w v).sp = s.sp := rfl
@[simp] theorem memWrite_flags : (s.memWrite w v).flags = s.flags := rfl
@[simp] theorem memWrite_mem : (s.memWrite w v).mem = s.mem.write w v := rfl
@[simp] theorem memWrite_status : (s.memWrite w v).status = s.status := rfl

@[simp] theorem setFlags_regs : (s.setFlags f).regs = s.regs := rfl
@[simp] theorem setFlags_pc : (s.setFlags f).pc = s.pc := rfl
@[simp] theorem setFlags_sp : (s.setFlags f).sp = s.sp := rfl
@[simp] theorem setFlags_flags : (s.setFlags f).flags = f := rfl
@[simp] theorem setFlags_mem : (s.setFlags f).mem = s.mem := rfl
@[simp] theorem setFlags_status : (s.setFlags f).status = s.status := rfl

@[simp] theorem setPc_regs : (s.setPc w).regs = s.regs := rfl
@[simp] theorem setPc_pc : (s.setPc w).pc = w := rfl
@[simp] theorem setPc_sp : (s.setPc w).sp = s.sp := rfl
@[simp] theorem setPc_flags : (s.setPc w).flags = s.flags := rfl
@[simp] theorem setPc_mem : (s.setPc w).mem = s.mem := rfl
@[simp] theorem setPc_status : (s.setPc w).status = s.status := rfl

@[simp] theorem raiseFatal_regs : (s.raiseFatal c).regs = s.regs := rfl
@[simp] theorem raiseFatal_pc : (s.raiseFatal c).pc = s.pc := rfl
@[simp] theorem raiseFatal_sp : (s.raiseFatal c).sp = s.sp := rfl
@[simp] theorem raiseFatal_flags : (s.raiseFatal c).flags = s.flags := rfl
@[simp] theorem raiseFatal_mem : (s.raiseFatal c).mem = s.mem := rfl
@[simp] theorem raiseFatal_status : (s.raiseFatal c).status = .faulted c := rfl

@[simp] theorem halt_regs : s.halt.regs = s.regs := rfl
@[simp] theorem halt_pc : s.halt.pc = s.pc := rfl
@[simp] theorem halt_sp : s.halt.sp = s.sp := rfl
@[simp] theorem halt_flags : s.halt.flags = s.flags := rfl
@[simp] theorem halt_mem : s.halt.mem = s.mem := rfl
@[simp] theorem halt_status : s.halt.status = .halted := rfl

end Fields

section Registers
variable (s : State) (r q : Reg) (v : Byte) (w : Word) (f : Flags) (c : FatalCondition)

/-- A register write, read back: the written register holds the value, every other one keeps its own. -/
theorem readReg_writeReg : (s.writeReg r v).readReg q = if q = r then v else s.readReg q := by
  cases r <;> cases q <;> rfl

@[simp] theorem readReg_writeReg_same : (s.writeReg r v).readReg r = v := by
  simp [readReg_writeReg]

@[simp] theorem readReg_writeReg_other (h : q ≠ r) : (s.writeReg r v).readReg q = s.readReg q := by
  simp [readReg_writeReg, h]

/-- The register file is a function of the registers alone. -/
theorem readReg_congr {s t : State} (h : s.regs = t.regs) (q : Reg) : s.readReg q = t.readReg q := by
  cases q <;> simp [State.readReg, h]

/-- Two register files that read alike are equal. -/
theorem regs_ext {s t : State} (h : ∀ q, s.readReg q = t.readReg q) : s.regs = t.regs := by
  obtain ⟨⟨_, _, _, _, _, _, _⟩, _, _, _, _, _⟩ := s
  obtain ⟨⟨_, _, _, _, _, _, _⟩, _, _, _, _, _⟩ := t
  have hb := h .b
  have hc := h .c
  have hd := h .d
  have he := h .e
  have hh := h .h
  have hl := h .l
  have ha := h .a
  simp_all [State.readReg]

@[simp] theorem memWrite_readReg : (s.memWrite w v).readReg q = s.readReg q := readReg_congr rfl q
@[simp] theorem setFlags_readReg : (s.setFlags f).readReg q = s.readReg q := readReg_congr rfl q
@[simp] theorem setPc_readReg : (s.setPc w).readReg q = s.readReg q := readReg_congr rfl q
@[simp] theorem raiseFatal_readReg : (s.raiseFatal c).readReg q = s.readReg q := readReg_congr rfl q
@[simp] theorem halt_readReg : s.halt.readReg q = s.readReg q := readReg_congr rfl q

@[simp] theorem memWrite_readPair (p : PairId) : (s.memWrite w v).readPair p = s.readPair p := by
  simp [State.readPair]
@[simp] theorem setFlags_readPair (p : PairId) : (s.setFlags f).readPair p = s.readPair p := by
  simp [State.readPair]
@[simp] theorem setPc_readPair (p : PairId) : (s.setPc w).readPair p = s.readPair p := by
  simp [State.readPair]

@[simp] theorem writeReg_memRead : (s.writeReg r v).memRead w = s.memRead w := by simp [State.memRead]
@[simp] theorem setFlags_memRead : (s.setFlags f).memRead w = s.memRead w := rfl
@[simp] theorem setPc_memRead (w' : Word) : (s.setPc w').memRead w = s.memRead w := rfl
@[simp] theorem raiseFatal_memRead : (s.raiseFatal c).memRead w = s.memRead w := rfl
@[simp] theorem halt_memRead : s.halt.memRead w = s.memRead w := rfl

/-- Writing a register with the value it holds changes nothing. -/
theorem writeReg_readReg : s.writeReg r (s.readReg r) = s := by cases r <;> rfl

end Registers

/-- Two states with equal fields are equal. -/
theorem state_ext {s t : State} (hr : s.regs = t.regs) (hp : s.pc = t.pc) (hs : s.sp = t.sp) (hf : s.flags = t.flags)
    (hm : s.mem = t.mem) (hst : s.status = t.status) : s = t := by
  cases s; cases t; simp_all

/-- `high * 256 + low` never wraps (`20_memory.md` R32). -/
theorem pairValue_toNat (h l : Byte) : (pairValue h l).toNat = h.toNat * 256 + l.toNat := by
  have := h.isLt
  have := l.isLt
  simp only [pairValue, BitVec.toNat_ofNat]
  omega

end Sys2Proof.Machine
end

