-- ==== Sys2Proof/Laws/Memory.lean ====
section
/-! SUPPORT. The laws of memory: reading after writing, and the canonical form. -/

namespace Sys2Proof.Machine

/-- Dropping a key makes it unlisted and leaves every other key alone. -/
theorem lookupCell_dropCell (k j : Nat) (cs : List Host.Cell) :
    lookupCell j (dropCell k cs) = if j = k then Memory.unlisted else lookupCell j cs := by
  induction cs with
  | nil => simp [dropCell, lookupCell]
  | cons c cs ih =>
    by_cases hc : c.1 = k
    · have hd : dropCell k (c :: cs) = dropCell k cs := by simp [dropCell, hc]
      rw [hd, ih]
      by_cases hj : j = k
      · simp [hj]
      · have : ¬ c.1 = j := fun h => hj (h.symm.trans hc)
        simp [hj, lookupCell, this]
    · have hd : dropCell k (c :: cs) = c :: dropCell k cs := by simp [dropCell, hc]
      rw [hd, lookupCell, ih]
      by_cases hcj : c.1 = j
      · have : ¬ j = k := fun h => hc (hcj.trans h)
        simp [hcj, this, lookupCell]
      · simp [hcj, lookupCell]

/-- Inserting a cell of a new key lists it and leaves every other key alone. -/
theorem lookupCell_insertCell (c : Host.Cell) (j : Nat) (cs : List Host.Cell) (hn : ∀ d ∈ cs, d.1 ≠ c.1) :
    lookupCell j (insertCell c cs) = if c.1 = j then c.2 else lookupCell j cs := by
  induction cs with
  | nil => simp [insertCell, lookupCell]
  | cons d ds ih =>
    have hd : d.1 ≠ c.1 := hn d (by simp)
    have ih' := ih fun e he => hn e (by simp [he])
    by_cases hlt : d.1 < c.1
    · rw [insertCell, if_pos hlt, lookupCell, lookupCell, ih']
      by_cases hdj : d.1 = j
      · have : ¬ c.1 = j := fun h => hd (hdj.trans h.symm)
        simp [hdj, this]
      · simp [hdj]
    · rw [insertCell, if_neg hlt, lookupCell]

theorem dropCell_ne (k : Nat) (cs : List Host.Cell) : ∀ d ∈ dropCell k cs, d.1 ≠ k := by
  intro d hd
  simpa [dropCell] using (List.mem_filter.mp hd).2

/-- What a write does to every address: the one it names holds the value, no other changes (`20_memory.md` R31). -/
theorem read_write (m : Memory) (x y : Word) (v : Byte) :
    (m.write x v).read y = if y = x then v else m.read y := by
  have hyx : (y.toNat = x.toNat) = (y = x) := propext ⟨BitVec.eq_of_toNat_eq, fun h => h ▸ rfl⟩
  unfold Memory.write Memory.read
  by_cases hv : v = Memory.unlisted
  · simp only [hv, if_true, lookupCell_dropCell, hyx]
  · simp only [hv, if_false]
    rw [lookupCell_insertCell _ _ _ (dropCell_ne x.toNat m.cells), lookupCell_dropCell]
    simp only [eq_comm (a := x.toNat), hyx]
    by_cases h : y = x <;> simp [h]

theorem memRead_memWrite (s : State) (x y : Word) (v : Byte) :
    (s.memWrite x v).memRead y = if y = x then v else s.memRead y := read_write s.mem x y v

@[simp] theorem memRead_memWrite_same (s : State) (x : Word) (v : Byte) : (s.memWrite x v).memRead x = v := by
  simp [memRead_memWrite]

theorem canonicalFrom_mono {lo lo' : Nat} (h : lo' ≤ lo) {cs : List Host.Cell} (hc : canonicalFrom lo cs = true) :
    canonicalFrom lo' cs = true := by
  cases cs with
  | nil => rfl
  | cons c cs =>
    simp only [canonicalFrom, Bool.and_eq_true, decide_eq_true_eq] at hc ⊢
    exact ⟨⟨⟨by omega, hc.1.1.2⟩, hc.1.2⟩, hc.2⟩

theorem canonicalFrom_dropCell (k : Nat) {lo : Nat} {cs : List Host.Cell} (hc : canonicalFrom lo cs = true) :
    canonicalFrom lo (dropCell k cs) = true := by
  induction cs generalizing lo with
  | nil => rfl
  | cons c cs ih =>
    have hc' := hc
    simp only [canonicalFrom, Bool.and_eq_true, decide_eq_true_eq] at hc'
    by_cases hk : c.1 = k
    · have hd : dropCell k (c :: cs) = dropCell k cs := by simp [dropCell, hk]
      rw [hd]
      exact ih (canonicalFrom_mono (by omega) hc'.2)
    · have hd : dropCell k (c :: cs) = c :: dropCell k cs := by simp [dropCell, hk]
      rw [hd]
      simp only [canonicalFrom, Bool.and_eq_true, decide_eq_true_eq]
      exact ⟨hc'.1, ih hc'.2⟩

theorem canonicalFrom_insertCell {c : Host.Cell} (hb : c.1 < 65536) (hv : c.2 ≠ Memory.unlisted) {lo : Nat}
    (hlo : lo ≤ c.1) {cs : List Host.Cell} (hn : ∀ d ∈ cs, d.1 ≠ c.1) (hc : canonicalFrom lo cs = true) :
    canonicalFrom lo (insertCell c cs) = true := by
  induction cs generalizing lo with
  | nil => simp [insertCell, canonicalFrom, hb, hv, hlo]
  | cons d ds ih =>
    have hd : d.1 ≠ c.1 := hn d (by simp)
    simp only [canonicalFrom, Bool.and_eq_true, decide_eq_true_eq] at hc
    by_cases hlt : d.1 < c.1
    · simp only [insertCell, hlt, if_true, canonicalFrom, Bool.and_eq_true, decide_eq_true_eq]
      exact ⟨hc.1, ih (by omega) (fun e he => hn e (by simp [he])) hc.2⟩
    · simp only [insertCell, hlt, if_false, canonicalFrom, Bool.and_eq_true, decide_eq_true_eq, bne_iff_ne]
      exact ⟨⟨⟨hlo, hb⟩, hv⟩, ⟨⟨by omega, hc.1.1.2⟩, by simpa using hc.1.2⟩, hc.2⟩

/-- A write keeps the canonical form. -/
theorem write_wf {m : Memory} (h : m.wf = true) (x : Word) (v : Byte) : (m.write x v).wf = true := by
  have hx := x.isLt
  unfold Memory.wf Memory.write at *
  by_cases hv : v = Memory.unlisted
  · simpa only [hv, if_true] using canonicalFrom_dropCell _ h
  · simpa only [hv, if_false] using
      canonicalFrom_insertCell hx hv (Nat.zero_le _) (dropCell_ne _ _) (canonicalFrom_dropCell _ h)

/-- Copying an image keeps the canonical form. -/
theorem copyBytes_wf {m : Memory} (h : m.wf = true) (x : Word) (vs : List Byte) : (copyBytes m x vs).wf = true := by
  induction vs generalizing m x with
  | nil => exact h
  | cons v vs ih => exact ih (write_wf h x v) (x + 1)

/-- Reset memory is in canonical form. -/
theorem reset_wf : State.reset.mem.wf = true := rfl

/-- Loading an image keeps the canonical form. -/
theorem loadImage_wf {s t : State} {image : List Byte} (h : s.mem.wf = true) (hl : s.loadImage image = .next t) :
    t.mem.wf = true := by
  unfold State.loadImage at hl
  split at hl <;> cases hl
  exact copyBytes_wf h _ _

/-- A key below every listed one is unlisted. -/
theorem lookupCell_below {lo k : Nat} {cs : List Host.Cell} (hc : canonicalFrom lo cs = true) (hk : k < lo) :
    lookupCell k cs = Memory.unlisted := by
  induction cs generalizing lo with
  | nil => rfl
  | cons c cs ih =>
    simp only [canonicalFrom, Bool.and_eq_true, decide_eq_true_eq] at hc
    have : ¬ c.1 = k := by omega
    simp only [lookupCell, this, if_false]
    exact ih hc.2 (by omega)

/-- Two canonical cell lists that read alike at every address are the same list. -/
theorem cells_ext {lo : Nat} {cs ds : List Host.Cell} (hc : canonicalFrom lo cs = true)
    (hd : canonicalFrom lo ds = true) (h : ∀ k, k < 65536 → lookupCell k cs = lookupCell k ds) : cs = ds := by
  induction cs generalizing lo ds with
  | nil =>
    cases ds with
    | nil => rfl
    | cons d ds =>
      simp only [canonicalFrom, Bool.and_eq_true, decide_eq_true_eq, bne_iff_ne] at hd
      exact absurd (by simpa [lookupCell] using (h d.1 hd.1.1.2).symm) hd.1.2
  | cons c cs ih =>
    simp only [canonicalFrom, Bool.and_eq_true, decide_eq_true_eq, bne_iff_ne] at hc
    cases ds with
    | nil => exact absurd (by simpa [lookupCell] using h c.1 hc.1.1.2) hc.1.2
    | cons d ds =>
      simp only [canonicalFrom, Bool.and_eq_true, decide_eq_true_eq, bne_iff_ne] at hd
      have hkey : c.1 = d.1 := by
        rcases Nat.lt_trichotomy c.1 d.1 with hlt | heq | hgt
        · have hl := h c.1 hc.1.1.2
          have hne : ¬ d.1 = c.1 := by omega
          simp only [lookupCell, if_true, hne, if_false] at hl
          rw [lookupCell_below hd.2 (by omega)] at hl
          exact absurd hl hc.1.2
        · exact heq
        · have hl := h d.1 hd.1.1.2
          have hne : ¬ c.1 = d.1 := by omega
          simp only [lookupCell, if_true, hne, if_false] at hl
          rw [lookupCell_below hc.2 (by omega)] at hl
          exact absurd hl.symm hd.1.2
      have hval : c.2 = d.2 := by simpa [lookupCell, hkey] using h c.1 hc.1.1.2
      have hcd : c = d := Prod.ext hkey hval
      subst hcd
      have htail : cs = ds := by
        refine ih hc.2 hd.2 fun k hk => ?_
        rcases Nat.lt_or_ge k (c.1 + 1) with hlt | hge
        · rw [lookupCell_below hc.2 hlt, lookupCell_below hd.2 hlt]
        · have hne : ¬ c.1 = k := by omega
          simpa [lookupCell, hne] using h k hk
      rw [htail]

/-- Equal memories are equal data: two canonical memories that read alike at every address are equal. -/
theorem memory_eq_of_read {m n : Memory} (hm : m.wf = true) (hn : n.wf = true) (h : ∀ x, m.read x = n.read x) :
    m = n := by
  refine memory_ext (cells_ext hm hn fun k hk => ?_)
  simpa [Memory.read, BitVec.toNat_ofNat, Nat.mod_eq_of_lt hk] using h (BitVec.ofNat 16 k)

end Sys2Proof.Machine
end

