-- ==== Sys2Proof/Laws/Operands.lean ====
section
/-! SUPPORT. What the operand resolver and the shared ALU operations do, once each. -/

namespace Sys2Proof.Machine

section Resolver
variable (s : State) (r : Reg) (v : Byte) (o : Operand)

@[simp] theorem readOperand_reg : s.readOperand (.reg r) = s.readReg r := rfl
@[simp] theorem readOperand_mem : s.readOperand .mem = s.memRead (s.readPair .hl) := rfl
@[simp] theorem writeOperand_reg : s.writeOperand (.reg r) v = s.writeReg r v := rfl
@[simp] theorem writeOperand_mem : s.writeOperand .mem v = s.memWrite (s.readPair .hl) v := rfl

@[simp] theorem writeOperand_pc : (s.writeOperand o v).pc = s.pc := by cases o <;> simp
@[simp] theorem writeOperand_sp : (s.writeOperand o v).sp = s.sp := by cases o <;> simp
@[simp] theorem writeOperand_flags : (s.writeOperand o v).flags = s.flags := by cases o <;> simp
@[simp] theorem writeOperand_status : (s.writeOperand o v).status = s.status := by cases o <;> simp

theorem writeOperand_wf (h : s.mem.wf = true) : (s.writeOperand o v).mem.wf = true := by
  cases o with
  | reg r => simpa using h
  | mem => exact write_wf h _ _

/-- An operand write changes no byte of memory but the one at HL, and that one only where the operand is memory. -/
theorem writeOperand_memRead (x : Word) :
    (s.writeOperand o v).memRead x = if o = .mem ∧ x = s.readPair .hl then v else s.memRead x := by
  cases o with
  | reg r => simp
  | mem => simp [memRead_memWrite]

/-- An operand write changes no register but the one the operand names. -/
theorem writeOperand_readReg (q : Reg) :
    (s.writeOperand o v).readReg q = if o = .reg q then v else s.readReg q := by
  cases o with
  | reg r => simp [readReg_writeReg, eq_comm]
  | mem => simp

/-- What an operand reads as depends on the registers and memory alone. -/
theorem readOperand_congr {s t : State} (hr : s.regs = t.regs) (hm : s.mem = t.mem) (o : Operand) :
    s.readOperand o = t.readOperand o := by
  cases o with
  | reg r => exact readReg_congr hr r
  | mem => simp [State.readPair, State.memRead, readReg_congr hr, hm]

end Resolver

section Alu
variable (s : State) (b : Byte) (c : Bool) (q : Reg)

@[simp] theorem addToA_pc : (s.addToA b c).pc = s.pc := by simp [State.addToA]
@[simp] theorem addToA_sp : (s.addToA b c).sp = s.sp := by simp [State.addToA]
@[simp] theorem addToA_mem : (s.addToA b c).mem = s.mem := by simp [State.addToA]
@[simp] theorem addToA_status : (s.addToA b c).status = s.status := by simp [State.addToA]
@[simp] theorem addToA_flags : (s.addToA b c).flags = (addFlags (s.readReg .a) b c).2 := rfl
theorem addToA_readReg :
    (s.addToA b c).readReg q = if q = .a then (addFlags (s.readReg .a) b c).1 else s.readReg q := by
  simp [State.addToA, readReg_writeReg]

@[simp] theorem subFromA_pc : (s.subFromA b c).pc = s.pc := by simp [State.subFromA]
@[simp] theorem subFromA_sp : (s.subFromA b c).sp = s.sp := by simp [State.subFromA]
@[simp] theorem subFromA_mem : (s.subFromA b c).mem = s.mem := by simp [State.subFromA]
@[simp] theorem subFromA_status : (s.subFromA b c).status = s.status := by simp [State.subFromA]
@[simp] theorem subFromA_flags : (s.subFromA b c).flags = (subFlags (s.readReg .a) b c).2 := rfl
theorem subFromA_readReg :
    (s.subFromA b c).readReg q = if q = .a then (subFlags (s.readReg .a) b c).1 else s.readReg q := by
  simp [State.subFromA, readReg_writeReg]

@[simp] theorem compareWithA_regs : (s.compareWithA b).regs = s.regs := rfl
@[simp] theorem compareWithA_pc : (s.compareWithA b).pc = s.pc := rfl
@[simp] theorem compareWithA_sp : (s.compareWithA b).sp = s.sp := rfl
@[simp] theorem compareWithA_mem : (s.compareWithA b).mem = s.mem := rfl
@[simp] theorem compareWithA_status : (s.compareWithA b).status = s.status := rfl
@[simp] theorem compareWithA_flags : (s.compareWithA b).flags = (subFlags (s.readReg .a) b false).2 := rfl

@[simp] theorem logicToA_pc : (s.logicToA b).pc = s.pc := by simp [State.logicToA]
@[simp] theorem logicToA_sp : (s.logicToA b).sp = s.sp := by simp [State.logicToA]
@[simp] theorem logicToA_mem : (s.logicToA b).mem = s.mem := by simp [State.logicToA]
@[simp] theorem logicToA_status : (s.logicToA b).status = s.status := by simp [State.logicToA]
@[simp] theorem logicToA_flags : (s.logicToA b).flags = logicFlags b s.flags := rfl
theorem logicToA_readReg : (s.logicToA b).readReg q = if q = .a then b else s.readReg q := by
  simp [State.logicToA, readReg_writeReg]

/-- An update in place is the operand's new byte written back, with the new flags. -/
theorem updateInPlace_eq (dst : Operand) (f : Byte → Flags → Byte × Flags) :
    s.updateInPlace dst f =
      (s.writeOperand dst (f (s.readOperand dst) s.flags).1).setFlags (f (s.readOperand dst) s.flags).2 := rfl

end Alu

end Sys2Proof.Machine
end

