-- ==== Sys2Proof/Laws/PerInstr.lean ====
section
/-! SUPPORT. The families of statements made once per instruction, one lemma per constructor of `Instr`. -/

namespace Sys2Proof.Laws.OpcodeRoundTrip

/-- A well-formed instruction's opcode byte announces an immediate exactly where the instruction carries one, and
classifies back to the instruction (`30_encoding.md` R53 to R60, R64). -/
def Statement (i : Instr) : Prop :=
  i.wellFormed = true →
    hasImm i.opcode = i.immediate.isSome ∧ decodeOp i.opcode (i.immediate.getD 0) = some i

theorem mov (dst src : Operand) : Statement (.mov dst src) := by
  rcases dst with ⟨⟨⟩⟩ | _ <;> rcases src with ⟨⟨⟩⟩ | _ <;>
    first | exact fun _ => ⟨rfl, rfl⟩ | exact fun h => nomatch h
theorem mvi (dst : Operand) (imm : Byte) : Statement (.mvi dst imm) := by
  rcases dst with ⟨⟨⟩⟩ | _ <;> exact fun _ => by
    simp [hasImm, decodeOp, Instr.opcode, Instr.immediate, Operand.field, Reg.id, dstField, Operand.ofField]
theorem inr (dst : Operand) : Statement (.inr dst) := by
  rcases dst with ⟨⟨⟩⟩ | _ <;> exact fun _ => ⟨rfl, rfl⟩
theorem dcr (dst : Operand) : Statement (.dcr dst) := by
  rcases dst with ⟨⟨⟩⟩ | _ <;> exact fun _ => ⟨rfl, rfl⟩
theorem add (src : Operand) : Statement (.add src) := by
  rcases src with ⟨⟨⟩⟩ | _ <;> exact fun _ => ⟨rfl, rfl⟩
theorem adc (src : Operand) : Statement (.adc src) := by
  rcases src with ⟨⟨⟩⟩ | _ <;> exact fun _ => ⟨rfl, rfl⟩
theorem sub (src : Operand) : Statement (.sub src) := by
  rcases src with ⟨⟨⟩⟩ | _ <;> exact fun _ => ⟨rfl, rfl⟩
theorem sbb (src : Operand) : Statement (.sbb src) := by
  rcases src with ⟨⟨⟩⟩ | _ <;> exact fun _ => ⟨rfl, rfl⟩
theorem ana (src : Operand) : Statement (.ana src) := by
  rcases src with ⟨⟨⟩⟩ | _ <;> exact fun _ => ⟨rfl, rfl⟩
theorem xra (src : Operand) : Statement (.xra src) := by
  rcases src with ⟨⟨⟩⟩ | _ <;> exact fun _ => ⟨rfl, rfl⟩
theorem ora (src : Operand) : Statement (.ora src) := by
  rcases src with ⟨⟨⟩⟩ | _ <;> exact fun _ => ⟨rfl, rfl⟩
theorem cmp (src : Operand) : Statement (.cmp src) := by
  rcases src with ⟨⟨⟩⟩ | _ <;> exact fun _ => ⟨rfl, rfl⟩
theorem adi (imm : Byte) : Statement (.adi imm) := fun _ => by
  simp [hasImm, decodeOp, Instr.opcode, Instr.immediate, dstField, aluImmInstr]
theorem aci (imm : Byte) : Statement (.aci imm) := fun _ => by
  simp [hasImm, decodeOp, Instr.opcode, Instr.immediate, dstField, aluImmInstr]
theorem sui (imm : Byte) : Statement (.sui imm) := fun _ => by
  simp [hasImm, decodeOp, Instr.opcode, Instr.immediate, dstField, aluImmInstr]
theorem sbi (imm : Byte) : Statement (.sbi imm) := fun _ => by
  simp [hasImm, decodeOp, Instr.opcode, Instr.immediate, dstField, aluImmInstr]
theorem ani (imm : Byte) : Statement (.ani imm) := fun _ => by
  simp [hasImm, decodeOp, Instr.opcode, Instr.immediate, dstField, aluImmInstr]
theorem xri (imm : Byte) : Statement (.xri imm) := fun _ => by
  simp [hasImm, decodeOp, Instr.opcode, Instr.immediate, dstField, aluImmInstr]
theorem ori (imm : Byte) : Statement (.ori imm) := fun _ => by
  simp [hasImm, decodeOp, Instr.opcode, Instr.immediate, dstField, aluImmInstr]
theorem cpi (imm : Byte) : Statement (.cpi imm) := fun _ => by
  simp [hasImm, decodeOp, Instr.opcode, Instr.immediate, dstField, aluImmInstr]
theorem hlt : Statement .hlt := fun _ => ⟨rfl, rfl⟩

end Sys2Proof.Laws.OpcodeRoundTrip
end

