-- ==== Sys2Proof/Laws/RegisterFile.lean ====
section
/-! SUPPORT. The numeric register-file interface and the raw-field resolver agree with the typed accessors, and a 3-bit
field never raises `InvalidRegisterId` (`60_exceptions.md` R133). -/

namespace Sys2Proof.Machine

@[simp] theorem regOfId_id (r : Reg) : regOfId r.id = some r := by cases r <;> rfl

/-- The seven ids name registers and no other number does. -/
theorem regOfId_eq_some {id : Nat} {r : Reg} : regOfId id = some r ↔ id = r.id := by
  constructor
  · intro h
    unfold regOfId at h
    split at h <;> cases h <;> rfl
  · rintro rfl
    exact regOfId_id r

/-- A 3-bit field is a register's id or 6. -/
theorem field_cases (f : BitVec 3) : f = 6 ∧ Operand.ofField f = .mem ∨
    f ≠ 6 ∧ ∃ r : Reg, f.toNat = r.id ∧ Operand.ofField f = .reg r := by
  have h : ∀ f : BitVec 3, f = 6 ∧ Operand.ofField f = .mem ∨
      f ≠ 6 ∧ ∃ r ∈ [Reg.b, .c, .d, .e, .h, .l, .a], f.toNat = r.id ∧ Operand.ofField f = .reg r := by
    decide
  rcases h f with h | ⟨h6, r, -, hr⟩
  · exact .inl h
  · exact .inr ⟨h6, r, hr⟩

/-- The raw-field read is the typed operand read and never fails (`40_operands_and_flags.md` R71). -/
theorem readField_eq (s : State) (f : BitVec 3) : s.readField f = .ok (s.readOperand (.ofField f)) := by
  rcases field_cases f with ⟨rfl, ho⟩ | ⟨h6, r, hr, ho⟩
  · rfl
  · rw [State.readField, if_neg h6, State.regRead, hr, regOfId_id, ho]
    rfl

/-- The raw-field write is the typed operand write and never fails (`40_operands_and_flags.md` R72). -/
theorem writeField_eq (s : State) (f : BitVec 3) (v : Byte) :
    s.writeField f v = .ok (s.writeOperand (.ofField f) v) := by
  rcases field_cases f with ⟨rfl, ho⟩ | ⟨h6, r, hr, ho⟩
  · rfl
  · rw [State.writeField, if_neg h6, State.regWrite, hr, regOfId_id, ho]
    rfl

end Sys2Proof.Machine
end

