-- ==== Sys2Proof/Laws/Step.lean ====
section
/-! SUPPORT. What a step can do, said once: the fetches, the three kinds of dispatch, and what every handler keeps. -/

namespace Sys2Proof.Machine

/-- `pc` after the fetches of an instruction whose opcode byte is `op` (`30_encoding.md` R64). -/
theorem fetchRest_pc (s : State) (op : Byte) :
    (s.fetchRest op).2.pc = s.pc + BitVec.ofNat 16 (opcodeLength op - 1) := by
  unfold State.fetchRest opcodeLength
  split <;> simp [State.fetchImm]

/-- The fetches move `pc` and nothing else. -/
theorem fetchRest_state (s : State) (op : Byte) :
    (s.fetchRest op).2 = s.setPc (s.pc + BitVec.ofNat 16 (opcodeLength op - 1)) := by
  unfold State.fetchRest opcodeLength
  split <;> simp [State.fetchImm, State.setPc]

/-- What a step of a running machine is, in terms of the byte at `pc`. -/
theorem step_running {s : State} (h : s.status = .running) :
    step s = dispatch (s.memRead s.pc) (s.setPc (s.pc + 1)) := by
  simp [step, h, State.fetchOpcode]

/-- Dispatching an undefined byte raises `UnimplementedOpcode` with it (`60_exceptions.md` R131). -/
theorem dispatch_undefined {op : Byte} (h : op ∈ undefinedOpcodes) (s : State) :
    dispatch op s = .next (s.raiseFatal (.unimplementedOpcode op)) := by
  simp [dispatch, (decodeOp_eq_none op _).mpr h]

/-- Dispatching a defined byte runs the instruction it is read as, after the fetches. -/
theorem dispatch_defined {op : Byte} {i : Instr} {s : State} (h : decodeOp op (s.fetchRest op).1 = some i) :
    dispatch op s = exec i (s.fetchRest op).2 := by
  simp [dispatch, h]

theorem add_one_add (pc : Word) (n : Nat) : pc + 1 + BitVec.ofNat 16 n = pc + BitVec.ofNat 16 (1 + n) := by
  apply BitVec.eq_of_toNat_eq
  have h1 : (1 : Word).toNat = 1 := rfl
  simp only [BitVec.toNat_add, BitVec.toNat_ofNat, h1]
  omega

theorem one_add_opcodeLength (op : Byte) : 1 + (opcodeLength op - 1) = opcodeLength op := by
  unfold opcodeLength
  split <;> rfl

/-- Everything a step with a next state can be: the machine was running, and the byte at `pc` was undefined and raised
`UnimplementedOpcode`, or it was read as a well-formed instruction whose handler ran with `pc` past it. -/
theorem step_cases {s t : State} (h : step s = .next t) : s.status = .running ∧
    ((s.memRead s.pc ∈ undefinedOpcodes ∧
        t = (s.setPc (s.pc + 1)).raiseFatal (.unimplementedOpcode (s.memRead s.pc))) ∨
      ∃ i imm, decodeOp (s.memRead s.pc) imm = some i ∧ i.wellFormed = true ∧
        (hasImm (s.memRead s.pc) = true → imm = s.memRead (s.pc + 1)) ∧
        exec i (s.setPc (s.pc + BitVec.ofNat 16 (opcodeLength (s.memRead s.pc)))) = .next t) := by
  have hr : s.status = .running := by
    unfold step at h
    split at h <;> first | assumption | cases h
  refine ⟨hr, ?_⟩
  rw [step_running hr] at h
  by_cases hu : s.memRead s.pc ∈ undefinedOpcodes
  · rw [dispatch_undefined hu] at h
    cases h
    exact .inl ⟨hu, rfl⟩
  · obtain ⟨i, hi⟩ := Option.ne_none_iff_exists'.mp (mt (decodeOp_eq_none (s.memRead s.pc)
      ((s.setPc (s.pc + 1)).fetchRest (s.memRead s.pc)).1).mp hu)
    refine .inr ⟨i, _, hi, decodeOp_wellFormed hi, fun him => by simp [State.fetchRest, him, State.fetchImm], ?_⟩
    rw [dispatch_defined hi, fetchRest_state, setPc_pc, add_one_add, one_add_opcodeLength] at h
    exact h

/-- The one change a handler can make to memory is at HL, and it is a plain byte write. -/
def ChangesMemoryAtMostAtHL (s t : State) : Prop := t.mem = s.mem ∨ ∃ v, t.mem = s.mem.write (s.readPair .hl) v

theorem writeOperand_changes (s : State) (o : Operand) (v : Byte) :
    ChangesMemoryAtMostAtHL s (s.writeOperand o v) := by
  cases o with
  | reg r => exact .inl (by simp)
  | mem => exact .inr ⟨v, rfl⟩

theorem updateInPlace_changes (s : State) (o : Operand) (f : Byte → Flags → Byte × Flags) :
    ChangesMemoryAtMostAtHL s (s.updateInPlace o f) := by
  rw [updateInPlace_eq]
  exact writeOperand_changes s o _

/-- `MOV` with an encoding is an operand read and an operand write. -/
theorem execMov_eq {dst src : Operand} (h : (Instr.mov dst src).wellFormed = true) (s : State) :
    execMov dst src s = .next (s.writeOperand dst (s.readOperand src)) := by
  cases dst <;> cases src <;> first | rfl | cases h

/-- The status an instruction leaves: only `HLT` ends a run (`10_state.md` R26). -/
def statusAfter (i : Instr) (s : State) : Status := if i = .hlt then .halted else s.status

/-- What every handler with an encoding keeps: it answers a next state, leaves `pc` and `sp`, changes at most the byte
at HL, and leaves the run status unless it is `HLT`'s. -/
theorem exec_keeps {i : Instr} (h : i.wellFormed = true) (s : State) :
    ∃ t, exec i s = .next t ∧ t.pc = s.pc ∧ t.sp = s.sp ∧ ChangesMemoryAtMostAtHL s t ∧ t.status = statusAfter i s := by
  cases i with
  | mov dst src =>
    exact ⟨_, execMov_eq h s, by simp, by simp, writeOperand_changes s dst _, by simp [statusAfter]⟩
  | mvi dst imm => exact ⟨_, rfl, by simp, by simp, writeOperand_changes s dst imm, by simp [statusAfter]⟩
  | inr dst =>
    exact ⟨_, rfl, by simp [updateInPlace_eq], by simp [updateInPlace_eq], updateInPlace_changes s dst _,
      by simp [updateInPlace_eq, statusAfter]⟩
  | dcr dst =>
    exact ⟨_, rfl, by simp [updateInPlace_eq], by simp [updateInPlace_eq], updateInPlace_changes s dst _,
      by simp [updateInPlace_eq, statusAfter]⟩
  | add src => exact ⟨_, rfl, by simp, by simp, .inl (by simp), by simp [statusAfter]⟩
  | adc src => exact ⟨_, rfl, by simp, by simp, .inl (by simp), by simp [statusAfter]⟩
  | sub src => exact ⟨_, rfl, by simp, by simp, .inl (by simp), by simp [statusAfter]⟩
  | sbb src => exact ⟨_, rfl, by simp, by simp, .inl (by simp), by simp [statusAfter]⟩
  | ana src => exact ⟨_, rfl, by simp, by simp, .inl (by simp), by simp [statusAfter]⟩
  | xra src => exact ⟨_, rfl, by simp, by simp, .inl (by simp), by simp [statusAfter]⟩
  | ora src => exact ⟨_, rfl, by simp, by simp, .inl (by simp), by simp [statusAfter]⟩
  | cmp src => exact ⟨_, rfl, by simp, by simp, .inl (by simp), by simp [statusAfter]⟩
  | adi imm => exact ⟨_, rfl, by simp, by simp, .inl (by simp), by simp [statusAfter]⟩
  | aci imm => exact ⟨_, rfl, by simp, by simp, .inl (by simp), by simp [statusAfter]⟩
  | sui imm => exact ⟨_, rfl, by simp, by simp, .inl (by simp), by simp [statusAfter]⟩
  | sbi imm => exact ⟨_, rfl, by simp, by simp, .inl (by simp), by simp [statusAfter]⟩
  | ani imm => exact ⟨_, rfl, by simp, by simp, .inl (by simp), by simp [statusAfter]⟩
  | xri imm => exact ⟨_, rfl, by simp, by simp, .inl (by simp), by simp [statusAfter]⟩
  | ori imm => exact ⟨_, rfl, by simp, by simp, .inl (by simp), by simp [statusAfter]⟩
  | cpi imm => exact ⟨_, rfl, by simp, by simp, .inl (by simp), by simp [statusAfter]⟩
  | hlt => exact ⟨_, rfl, rfl, rfl, .inl rfl, by simp [statusAfter]⟩

/-- A change of memory at HL alone keeps the canonical form. -/
theorem ChangesMemoryAtMostAtHL.wf {s t : State} (h : ChangesMemoryAtMostAtHL s t) (hw : s.mem.wf = true) :
    t.mem.wf = true := by
  rcases h with h | ⟨v, h⟩ <;> rw [h]
  · exact hw
  · exact write_wf hw _ _

/-- Placing a table word for the next fetch keeps the canonical form. -/
theorem withFetchWord_wf {s : State} (h : s.mem.wf = true) (nbits w : Nat) :
    (s.withFetchWord nbits w).mem.wf = true := write_wf (write_wf h _ _) _ _

/-- A change of memory at HL alone leaves every other byte. -/
theorem ChangesMemoryAtMostAtHL.memRead {s t : State} (h : ChangesMemoryAtMostAtHL s t) {x : Word}
    (hx : x ≠ s.readPair .hl) : t.memRead x = s.memRead x := by
  rcases h with h | ⟨v, h⟩ <;> simp [State.memRead, h, read_write, hx]

end Sys2Proof.Machine
end

