-- ==== Sys2Proof/Tests/Slice0.lean ====
section
/-! SUPPORT. Tests of single steps, expected results from `spec/95_test_vectors.md` and the rules' examples, and a
witness for the hypotheses of every statement that has some. -/

namespace Sys2Proof.Tests

open Machine Claims

/-- The reset state with bytes placed from address 0. -/
def placed (bs : List Byte) : State := { State.reset with mem := copyBytes State.reset.mem 0 bs }

/-- The next state of an outcome, if it is one. -/
def nextOf : StepResult → Option State
  | .next t => some t
  | .fault _ => none
  | .refused _ => none

/-- The flags in the vectors' column order Z, S, P, CY, AC. -/
def flagBits (z s p cy ac : Nat) : Flags := ⟨z == 1, s == 1, p == 1, cy == 1, ac == 1⟩

/-- One step on the opcode `op` with A, B and carry set: A and the flags after it. -/
def stepOnAB (op a b : Byte) (cy : Bool) : Option (Byte × Flags) :=
  (nextOf (step { placed [op] with
    regs := { a := a, b := b, c := 0, d := 0, e := 0, h := 0, l := 0 }
    flags := { State.reset.flags with carry := cy } })).map fun t => (t.regs.a, t.flags)

/-- One step on the bytes `bs` with A and all five flags set: A, the flags and `pc` after it. -/
def stepOnA (bs : List Byte) (a : Byte) (f : Flags) : Option (Byte × Flags × Word) :=
  (nextOf (step { placed bs with regs := { State.reset.regs with a := a }, flags := f })).map
    fun t => (t.regs.a, t.flags, t.pc)

/-- A state with the bytes `bs` at `pc` = 0, HL, A, the byte at HL and the flags set. -/
def atHL (bs : List Byte) (h l a m : Byte) (f : Flags) : State :=
  { placed bs with
    regs := { a := a, b := 0, c := 0, d := 0, e := 0, h := h, l := l }
    flags := f
    mem := (placed bs).mem.write (pairValue h l) m }

/-! Well-formedness and decoding. -/

theorem test_wellFormed_refuses_memory_to_memory : (Instr.mov .mem .mem).wellFormed = false := by decide

theorem test_wellFormed_accepts_one_memory_operand :
    (Instr.mov .mem (.reg .a)).wellFormed = true ∧ (Instr.mov (.reg .a) .mem).wellFormed = true := by decide

/-- R90's example 0x78. -/
theorem test_decode_mov : decode [0b01111000] = .ok (.mov (.reg .a) (.reg .b), []) := by decide
/-- V-E3. -/
theorem test_decode_mov_memory : decode [0b01110111] = .ok (.mov .mem (.reg .a), []) := by decide
/-- S11. -/
theorem test_decode_mvi : decode [0b00111110, 0x05] = .ok (.mvi (.reg .a) 0x05, []) := by decide
/-- V-E4. -/
theorem test_decode_mvi_memory : decode [0b00110110, 0x99] = .ok (.mvi .mem 0x99, []) := by decide
/-- S11. -/
theorem test_decode_inr : decode [0b00111100] = .ok (.inr (.reg .a), []) := by decide
/-- V-E8. -/
theorem test_decode_dcr : decode [0b00111101] = .ok (.dcr (.reg .a), []) := by decide
/-- S11. -/
theorem test_decode_add : decode [0b10000000] = .ok (.add (.reg .b), []) := by decide
/-- R103's example 0x89. -/
theorem test_decode_adc : decode [0b10001001] = .ok (.adc (.reg .c), []) := by decide
/-- R107. -/
theorem test_decode_sub : decode [0b10010110] = .ok (.sub .mem, []) := by decide
/-- R109's example 0x9D. -/
theorem test_decode_sbb : decode [0b10011101] = .ok (.sbb (.reg .l), []) := by decide
/-- R112's example 0xA1. -/
theorem test_decode_ana : decode [0b10100001] = .ok (.ana (.reg .c), []) := by decide
/-- R115's example 0xA9. -/
theorem test_decode_xra : decode [0b10101001] = .ok (.xra (.reg .c), []) := by decide
/-- R118's example 0xB1. -/
theorem test_decode_ora : decode [0b10110001] = .ok (.ora (.reg .c), []) := by decide
/-- R121's example 0xBB. -/
theorem test_decode_cmp : decode [0b10111011] = .ok (.cmp (.reg .e), []) := by decide
/-- R102. -/
theorem test_decode_adi : decode [0b11000110, 0x42] = .ok (.adi 0x42, []) := by decide
/-- R105. -/
theorem test_decode_aci : decode [0b11001110, 0xBE] = .ok (.aci 0xBE, []) := by decide
/-- R108. -/
theorem test_decode_sui : decode [0b11010110, 0x01] = .ok (.sui 0x01, []) := by decide
/-- R111. -/
theorem test_decode_sbi : decode [0b11011110, 0xFF] = .ok (.sbi 0xFF, []) := by decide
/-- R114. -/
theorem test_decode_ani : decode [0b11100110, 0x0F] = .ok (.ani 0x0F, []) := by decide
/-- R117. -/
theorem test_decode_xri : decode [0b11101110, 0x81] = .ok (.xri 0x81, []) := by decide
/-- R120. -/
theorem test_decode_ori : decode [0b11110110, 0x0F] = .ok (.ori 0x0F, []) := by decide
/-- R123. -/
theorem test_decode_cpi : decode [0b11111110, 0x40] = .ok (.cpi 0x40, []) := by decide
/-- V-E1. -/
theorem test_decode_hlt : decode [0b01110110] = .ok (.hlt, []) := by decide

/-- V-E5, V-E6's neighbours, V-E7, V-E11's neighbours and V-E14. -/
theorem test_decode_undefined : ∀ op ∈ ([0xCD, 0xC5, 0xC7, 0x00, 0xFD, 0xFF, 0x01, 0x31] : List Byte),
    decode [op, 0x76] = .error (.unimplementedOpcode op) := by decide

theorem test_decode_truncated : decode [0x3E] = .error .endOfBytes ∧ decode [] = .error .endOfBytes := by decide

/-! One step of each class against the vectors. -/

/-- V-A1 to V-A9, with the old carry set, which `ADD` ignores. -/
theorem test_add_vectors : ∀ v ∈ ([(0x05, 0x03, true, 0x08, flagBits 0 0 0 0 0),
    (0x7F, 0x01, true, 0x80, flagBits 0 1 0 0 1),
    (0xFF, 0x01, true, 0x00, flagBits 1 0 1 1 1),
    (0x0F, 0x01, true, 0x10, flagBits 0 0 0 0 1),
    (0x80, 0x80, true, 0x00, flagBits 1 0 1 1 0),
    (0x00, 0x00, true, 0x00, flagBits 1 0 1 0 0),
    (0xF0, 0x10, true, 0x00, flagBits 1 0 1 1 0),
    (0x3A, 0xC6, true, 0x00, flagBits 1 0 1 1 1),
    (0x2E, 0x6C, true, 0x9A, flagBits 0 1 1 0 1)] : List (Byte × Byte × Bool × Byte × Flags)),
    stepOnAB 0x80 v.1 v.2.1 v.2.2.1 = some v.2.2.2 := by decide

/-- V-A10 to V-A17. -/
theorem test_adc_vectors : ∀ v ∈ ([(0x42, 0x3D, false, 0x7F, flagBits 0 0 0 0 0),
    (0x42, 0x3D, true, 0x80, flagBits 0 1 0 0 1),
    (0x00, 0xFF, true, 0x00, flagBits 1 0 1 1 1),
    (0x0F, 0xF0, true, 0x00, flagBits 1 0 1 1 1),
    (0x10, 0x0F, true, 0x20, flagBits 0 0 0 0 1),
    (0x80, 0x7F, true, 0x00, flagBits 1 0 1 1 1),
    (0xFF, 0xFF, true, 0xFF, flagBits 0 1 1 1 1),
    (0x00, 0x00, true, 0x01, flagBits 0 0 0 0 0)] : List (Byte × Byte × Bool × Byte × Flags)),
    stepOnAB 0x88 v.1 v.2.1 v.2.2.1 = some v.2.2.2 := by decide

/-- V-A18 to V-A27, with the old carry set, which `SUB` ignores. -/
theorem test_sub_vectors : ∀ v ∈ ([(0x08, 0x03, true, 0x05, flagBits 0 0 1 0 0),
    (0x3E, 0x3E, true, 0x00, flagBits 1 0 1 0 0),
    (0x00, 0x01, true, 0xFF, flagBits 0 1 1 1 1),
    (0x10, 0x01, true, 0x0F, flagBits 0 0 1 0 1),
    (0x80, 0x01, true, 0x7F, flagBits 0 0 0 0 1),
    (0x00, 0x00, true, 0x00, flagBits 1 0 1 0 0),
    (0x05, 0x0A, true, 0xFB, flagBits 0 1 0 1 1),
    (0xFF, 0xFF, true, 0x00, flagBits 1 0 1 0 0),
    (0x00, 0xFF, true, 0x01, flagBits 0 0 0 1 1),
    (0x7F, 0x80, true, 0xFF, flagBits 0 1 1 1 0)] : List (Byte × Byte × Bool × Byte × Flags)),
    stepOnAB 0x90 v.1 v.2.1 v.2.2.1 = some v.2.2.2 := by decide

/-- V-A28 to V-A35. -/
theorem test_sbb_vectors : ∀ v ∈ ([(0x04, 0x02, true, 0x01, flagBits 0 0 0 0 0),
    (0x04, 0x02, false, 0x02, flagBits 0 0 0 0 0),
    (0x00, 0xFF, true, 0x00, flagBits 1 0 1 1 1),
    (0x00, 0x00, true, 0xFF, flagBits 0 1 1 1 1),
    (0x10, 0x0F, true, 0x00, flagBits 1 0 1 0 1),
    (0x80, 0x7F, true, 0x00, flagBits 1 0 1 0 1),
    (0xFF, 0xFF, true, 0xFF, flagBits 0 1 1 1 1),
    (0x01, 0x00, true, 0x00, flagBits 1 0 1 0 0)] : List (Byte × Byte × Bool × Byte × Flags)),
    stepOnAB 0x98 v.1 v.2.1 v.2.2.1 = some v.2.2.2 := by decide

/-- V-L1 to V-L7, with the old carry set. -/
theorem test_ana_vectors : ∀ v ∈ ([(0xFC, 0x0F, true, 0x0C, flagBits 0 0 1 0 0),
    (0xFF, 0xFF, true, 0xFF, flagBits 0 1 1 0 0),
    (0xAA, 0x55, true, 0x00, flagBits 1 0 1 0 0),
    (0x00, 0x00, true, 0x00, flagBits 1 0 1 0 0),
    (0x5C, 0x78, true, 0x58, flagBits 0 0 0 0 0),
    (0x33, 0x0F, true, 0x03, flagBits 0 0 1 0 0),
    (0x80, 0x80, true, 0x80, flagBits 0 1 0 0 0)] : List (Byte × Byte × Bool × Byte × Flags)),
    stepOnAB 0xA0 v.1 v.2.1 v.2.2.1 = some v.2.2.2 := by decide

/-- V-L1 to V-L7, with the old carry set. -/
theorem test_xra_vectors : ∀ v ∈ ([(0xFC, 0x0F, true, 0xF3, flagBits 0 1 1 0 0),
    (0xFF, 0xFF, true, 0x00, flagBits 1 0 1 0 0),
    (0xAA, 0x55, true, 0xFF, flagBits 0 1 1 0 0),
    (0x00, 0x00, true, 0x00, flagBits 1 0 1 0 0),
    (0x5C, 0x78, true, 0x24, flagBits 0 0 1 0 0),
    (0x33, 0x0F, true, 0x3C, flagBits 0 0 1 0 0),
    (0x80, 0x80, true, 0x00, flagBits 1 0 1 0 0)] : List (Byte × Byte × Bool × Byte × Flags)),
    stepOnAB 0xA8 v.1 v.2.1 v.2.2.1 = some v.2.2.2 := by decide

/-- V-L1 to V-L7, with the old carry set. -/
theorem test_ora_vectors : ∀ v ∈ ([(0xFC, 0x0F, true, 0xFF, flagBits 0 1 1 0 0),
    (0xFF, 0xFF, true, 0xFF, flagBits 0 1 1 0 0),
    (0xAA, 0x55, true, 0xFF, flagBits 0 1 1 0 0),
    (0x00, 0x00, true, 0x00, flagBits 1 0 1 0 0),
    (0x5C, 0x78, true, 0x7C, flagBits 0 0 0 0 0),
    (0x33, 0x0F, true, 0x3F, flagBits 0 0 1 0 0),
    (0x80, 0x80, true, 0x80, flagBits 0 1 0 0 0)] : List (Byte × Byte × Bool × Byte × Flags)),
    stepOnAB 0xB0 v.1 v.2.1 v.2.2.1 = some v.2.2.2 := by decide

/-- V-C1 to V-C9, with the old carry set; A is unchanged. -/
theorem test_cmp_vectors : ∀ v ∈ ([(0x0A, 0x05, true, 0x0A, flagBits 0 0 1 0 0),
    (0x02, 0x05, true, 0x02, flagBits 0 1 0 1 1),
    (0x05, 0x05, true, 0x05, flagBits 1 0 1 0 0),
    (0xE5, 0x05, true, 0xE5, flagBits 0 1 0 0 0),
    (0x00, 0xFF, true, 0x00, flagBits 0 0 0 1 1),
    (0x80, 0x7F, true, 0x80, flagBits 0 0 0 0 1),
    (0x00, 0x00, true, 0x00, flagBits 1 0 1 0 0),
    (0x10, 0x01, true, 0x10, flagBits 0 0 1 0 1),
    (0xFF, 0x00, true, 0xFF, flagBits 0 1 1 0 0)] : List (Byte × Byte × Bool × Byte × Flags)),
    stepOnAB 0xB8 v.1 v.2.1 v.2.2.1 = some v.2.2.2 := by decide

/-- V-I1 to V-I6 on A, with the old carry set, which is kept. -/
theorem test_inr_vectors : ∀ v ∈ ([(0x00, 0x00, true, 0x01, flagBits 0 0 0 1 0),
    (0x0F, 0x00, true, 0x10, flagBits 0 0 0 1 1),
    (0x7F, 0x00, true, 0x80, flagBits 0 1 0 1 1),
    (0xFF, 0x00, true, 0x00, flagBits 1 0 1 1 1),
    (0x99, 0x00, true, 0x9A, flagBits 0 1 1 1 0),
    (0xFE, 0x00, true, 0xFF, flagBits 0 1 1 1 0)] : List (Byte × Byte × Bool × Byte × Flags)),
    stepOnAB 0x3C v.1 v.2.1 v.2.2.1 = some v.2.2.2 := by decide

/-- V-I7 to V-I12 on A, with the old carry set, which is kept. -/
theorem test_dcr_vectors : ∀ v ∈ ([(0x00, 0x00, true, 0xFF, flagBits 0 1 1 1 1),
    (0x01, 0x00, true, 0x00, flagBits 1 0 1 1 0),
    (0x10, 0x00, true, 0x0F, flagBits 0 0 1 1 1),
    (0x80, 0x00, true, 0x7F, flagBits 0 0 0 1 1),
    (0xFF, 0x00, true, 0xFE, flagBits 0 1 0 1 0),
    (0x40, 0x00, true, 0x3F, flagBits 0 0 1 1 1)] : List (Byte × Byte × Bool × Byte × Flags)),
    stepOnAB 0x3D v.1 v.2.1 v.2.2.1 = some v.2.2.2 := by decide

/-- R102's example. -/
theorem test_adi : stepOnA [0xC6, 0x42] 0x14 (flagBits 0 0 0 1 1) = some (0x56, flagBits 0 0 1 0 0, 2) := by decide
/-- R105's example. -/
theorem test_aci : stepOnA [0xCE, 0xBE] 0x56 (flagBits 0 0 0 1 1) = some (0x15, flagBits 0 0 0 1 1, 2) := by decide
/-- R108's example. -/
theorem test_sui : stepOnA [0xD6, 0x01] 0x00 (flagBits 0 0 0 1 1) = some (0xFF, flagBits 0 1 1 1 1, 2) := by decide
/-- R111's example. -/
theorem test_sbi : stepOnA [0xDE, 0xFF] 0x00 (flagBits 0 0 0 1 1) = some (0x00, flagBits 1 0 1 1 1, 2) := by decide
/-- R114's example. -/
theorem test_ani : stepOnA [0xE6, 0x0F] 0x3A (flagBits 0 0 0 1 1) = some (0x0A, flagBits 0 0 1 0 0, 2) := by decide
/-- R117's example. -/
theorem test_xri : stepOnA [0xEE, 0x81] 0x3B (flagBits 0 0 0 1 1) = some (0xBA, flagBits 0 1 0 0 0, 2) := by decide
/-- R120's example. -/
theorem test_ori : stepOnA [0xF6, 0x0F] 0xB5 (flagBits 0 0 0 1 1) = some (0xBF, flagBits 0 1 0 0 0, 2) := by decide
/-- R123's example. -/
theorem test_cpi : stepOnA [0xFE, 0x40] 0x4A (flagBits 0 0 0 1 1) = some (0x4A, flagBits 0 0 1 0 0, 2) := by decide

/-- V-T1: `MOV A,B` copies B to A, not A to B, and leaves the flags. -/
theorem test_mov_direction : stepOnAB 0x78 0x00 0x12 true = some (0x12, flagBits 0 0 0 1 0) := by decide

/-- V-T4: `MOV H,M` loads from the old HL. -/
theorem test_mov_h_from_memory : (nextOf (step (atHL [0x66] 0x20 0x10 0 0x33 (flagBits 1 0 1 0 1)))).map
    (fun t => (t.regs.h, t.regs.l, t.memRead 0x2010, t.flags)) = some (0x33, 0x10, 0x33, flagBits 1 0 1 0 1) := by decide

/-- V-T5: `MOV M,L` stores the low byte of the address at the address. -/
theorem test_mov_l_to_memory : (nextOf (step (atHL [0x75] 0x20 0x10 0 0 (flagBits 0 0 0 0 0)))).map
    (fun t => (t.memRead 0x2010, t.memRead 0x0000, t.pc)) = some (0x10, 0x75, 1) := by decide

/-- V-T9: the immediate of an instruction at 0xFFFF is at 0x0000. -/
theorem test_mvi_wraps : (nextOf (step { ((State.reset.memWrite 0xFFFF 0x3E).memWrite 0 0x05) with pc := 0xFFFF })).map
    (fun t => (t.regs.a, t.pc)) = some (0x05, 1) := by decide

/-- V-T8: `MVI M,0x99`. -/
theorem test_mvi_memory : (nextOf (step (atHL [0x36, 0x99] 0x00 0x40 0 0 (flagBits 1 0 0 1 0)))).map
    (fun t => (t.memRead 0x0040, t.pc, t.flags)) = some (0x99, 2, flagBits 1 0 0 1 0) := by decide

/-- V-I13. -/
theorem test_inr_memory : (nextOf (step (atHL [0x34] 0x00 0x40 0 0x0F (flagBits 0 0 0 1 0)))).map
    (fun t => (t.memRead 0x0040, t.flags)) = some (0x10, flagBits 0 0 0 1 1) := by decide

/-- V-I14. -/
theorem test_dcr_memory : (nextOf (step (atHL [0x35] 0x00 0x40 0 0x00 (flagBits 0 0 0 1 0)))).map
    (fun t => (t.memRead 0x0040, t.flags)) = some (0xFF, flagBits 0 1 1 1 1) := by decide

/-- R101's example: `ADD M`. -/
theorem test_add_memory : (nextOf (step (atHL [0x86] 0x00 0x50 0x3A 0xC6 (flagBits 0 0 0 0 0)))).map
    (fun t => (t.regs.a, t.flags, t.memRead 0x0050)) = some (0x00, flagBits 1 0 1 1 1, 0xC6) := by decide

/-- V-X1 and V-X2: the empty image loads one `HLT`, and the first step halts on it. -/
theorem test_empty_image_halts : ((nextOf (State.reset.loadImage [])).bind (fun s => nextOf (step s))).map
    (fun t => (t.status, t.pc, t.sp, t.mem.cells)) = some (.halted, 1, 0xFFFF, [(0, 0x76)]) := by decide

/-- V-X7: `HLT` at 0xFFFF. -/
theorem test_hlt_wraps : (nextOf (step { State.reset.memWrite 0xFFFF 0x76 with pc := 0xFFFF })).map
    (fun t => (t.status, t.pc)) = some (.halted, 0) := by decide

/-- V-X3. -/
theorem test_undefined_opcode : (nextOf (step { placed [0x3E, 0x01, 0xCD] with pc := 2 })).map
    (fun t => (t.status, t.pc)) = some (.faulted (.unimplementedOpcode 0xCD), 3) := by decide

/-- V-X4: no step is enabled after the end. -/
theorem test_no_step_after_the_end : nextOf (step State.reset.halt) = none ∧
    nextOf (step (State.reset.raiseFatal (.unimplementedOpcode 0))) = none := by decide

/-- V-X5. -/
theorem test_memory_to_memory_move : nextOf (exec (.mov .mem .mem) (placed [0x12])) =
    some ((placed [0x12]).raiseFatal .illegalMemoryToMemoryMove) := by decide

/-- V-X6. -/
theorem test_register_file_refuses : ∀ id ∈ [6, 8], (State.reset.regRead id).isOk = false ∧
    (State.reset.regWrite id 1).isOk = false := by decide

/-- V-X8 and V-X9. -/
theorem test_image_padding : padImage [0x3C] = [0x3C, 0x76] ∧ padImage [0x3E, 0x76] = [0x3E, 0x76] := by decide

/-- S2's instances. -/
theorem test_pairs : ((State.reset.writeReg .h 0x12).writeReg .l 0x34).readPair .hl = 0x1234 ∧
    ((State.reset.writeReg .c 0xCD).writeReg .b 0xAB).readPair .bc = 0xABCD ∧
    ((State.reset.writeReg .d 0x00).writeReg .e 0xFF).readPair .de = 0x00FF := by decide

/-- The table words of `MVI L` (two bytes, opcode bits alone) and `MOV A,M`, and what the next step makes of them. -/
theorem test_table_words : decodeTableWord 8 0x2E = some (.mvi (.reg .l) 0) ∧
    decodeTableWord 16 0x052E = some (.mvi (.reg .l) 5) ∧ decodeTableWord 8 0x7E = some (.mov (.reg .a) .mem) ∧
    decodeTableWord 8 0x00 = none ∧
    (nextOf (step (State.reset.withFetchWord 16 0x052E))).map (fun t => (t.regs.l, t.pc)) = some (5, 2) := by decide

/-! A witness for the hypotheses of every statement that has some; where a statement has several clauses over one byte
or index, one for each clause at a boundary value. -/

theorem longImage (n : Nat) : (List.replicate n (0x00 : Byte)).getLast? ≠ some 0x76 ∧
    n < (List.replicate n (0x00 : Byte) ++ [0x76]).length := by
  refine ⟨?_, by simp⟩
  rw [List.getLast?_replicate]
  split <;> simp

theorem witness_MemoryHoldsWhatWasWritten : (0xFFFF : Word) ≠ 0x0000 := by decide
theorem witness_StepKeepsInvariant : ∃ t, Inv (placed [0x3C]) ∧ step (placed [0x3C]) = .next t :=
  ⟨_, ⟨by decide, trivial⟩, rfl⟩
theorem witness_RegisterFileContract : (0, Reg.b) ∈ [(0, Reg.b), (1, .c), (2, .d), (3, .e), (4, .h), (5, .l), (7, .a)] ∧
    (7, Reg.a) ∈ [(0, Reg.b), (1, .c), (2, .d), (3, .e), (4, .h), (5, .l), (7, .a)] ∧ 6 ∉ [0, 1, 2, 3, 4, 5, 7] ∧
    8 ∉ [0, 1, 2, 3, 4, 5, 7] ∧ ∃ t, step (placed [0x3C]) = .next t :=
  ⟨by decide, by decide, by decide, by decide, _, rfl⟩
theorem witness_PairsFollowTheirRegisters : (PairId.bc, Reg.b, Reg.c) ∈ [(PairId.bc, Reg.b, Reg.c), (.de, .d, .e), (.hl, .h, .l)] ∧
    (PairId.hl, Reg.h, Reg.l) ∈ [(PairId.bc, Reg.b, Reg.c), (.de, .d, .e), (.hl, .h, .l)] :=
  by decide
theorem witness_SourceFieldResolution : (6 : BitVec 3) = 6 ∧ (5 : BitVec 3).toNat = Reg.l.id ∧ (7 : BitVec 3).toNat = Reg.a.id ∧
    (0 : BitVec 3).toNat = Reg.b.id :=
  by decide
theorem witness_DestinationFieldResolution : (6 : BitVec 3) = 6 ∧ (5 : BitVec 3).toNat = Reg.l.id ∧ (7 : BitVec 3).toNat = Reg.a.id ∧
    (0 : BitVec 3).toNat = Reg.b.id :=
  by decide
theorem witness_DecodeInvertsEncode : (Instr.mov .mem (.reg .a)).wellFormed = true ∧ (Instr.cpi 0xFF).wellFormed = true :=
  by decide
theorem witness_EncodeInvertsDecode : decode [0x36, 0x99, 0x76] = .ok (.mvi .mem 0x99, [0x76]) ∧ decode [0x77, 0x76] = .ok (.mov .mem (.reg .a), [0x76]) :=
  by decide
theorem witness_StepRunsDecodedInstruction : (placed [0xFE, 0x40]).status = .running ∧ (Instr.cpi 0x40).wellFormed = true ∧
    decode ((placed [0xFE, 0x40]).readBytes (placed [0xFE, 0x40]).pc 2) = .ok (.cpi 0x40, []) :=
  by decide
theorem witness_RunningStepOutcome : (∀ op ∈ ([0x76, 0x00, 0xFF, 0x3F, 0xC0, 0x40, 0xBF] : List Byte), (placed [op]).status = .running ∧
    (placed [op]).memRead (placed [op]).pc = op) ∧ (0x00 : Byte) ∈ undefinedOpcodes ∧ (0xFF : Byte) ∈ undefinedOpcodes ∧
    (0x3F : Byte) ∈ undefinedOpcodes ∧ (0xC0 : Byte) ∈ undefinedOpcodes ∧ (0x40 : Byte) ∉ undefinedOpcodes ∧
    (0xBF : Byte) ∉ undefinedOpcodes :=
  by decide
theorem witness_EndedRunTakesNoStep : State.reset.halt.status = .halted ∧
    (State.reset.raiseFatal (.unimplementedOpcode 0)).status = .faulted (.unimplementedOpcode 0) ∧
    State.reset.status = .running :=
  by decide
theorem witness_ProgramCounterAdvance : ∀ op ∈ ([0x06, 0x3E, 0xC6, 0xFE, 0x46, 0xBE, 0x05, 0x00] : List Byte),
    (nextOf (step (placed [op]))).isSome = true :=
  by decide
theorem witness_UndefinedOpcodeFaults : ∀ op ∈ ([0x00, 0x3F, 0xC0, 0xFF] : List Byte), (placed [op]).status = .running ∧
    (placed [op]).memRead (placed [op]).pc ∈ undefinedOpcodes :=
  by decide
theorem witness_MemoryToMemoryMoveRejected : (∃ t, step (placed [0x77]) = .next t) ∧ Operand.ofField (dstField 0x76) = .mem ∧
    Operand.ofField (srcField 0x76) = .mem ∧ (0x76 : Byte).toNat / 64 = 1 :=
  ⟨⟨_, rfl⟩, by decide, by decide, by decide⟩
theorem witness_MovRegisterToRegister : Fetches (placed [0x40]) [BitVec.ofNat 8 (0x40 + 8 * Reg.b.id + Reg.b.id)] ∧
    Fetches (placed [0x7F]) [BitVec.ofNat 8 (0x40 + 8 * Reg.a.id + Reg.a.id)] :=
  by decide
theorem witness_MovMemoryToRegister : Fetches (placed [0x46]) [BitVec.ofNat 8 (0x46 + 8 * Reg.b.id)] ∧
    Fetches (placed [0x7E]) [BitVec.ofNat 8 (0x46 + 8 * Reg.a.id)] :=
  by decide
theorem witness_MovRegisterToMemory : Fetches (placed [0x70]) [BitVec.ofNat 8 (0x70 + Reg.b.id)] ∧
    Fetches (placed [0x77]) [BitVec.ofNat 8 (0x70 + Reg.a.id)] :=
  by decide
theorem witness_MviToRegister : Fetches (placed [0x06, 0xFF]) [BitVec.ofNat 8 (0x06 + 8 * Reg.b.id), 0xFF] ∧
    Fetches (placed [0x3E, 0xFF]) [BitVec.ofNat 8 (0x06 + 8 * Reg.a.id), 0xFF] :=
  by decide
theorem witness_MviToMemory : Fetches (placed [0x36, 0x99]) [0x36, 0x99] := by decide
theorem witness_InrRegister : Fetches (placed [0x04]) [BitVec.ofNat 8 (0x04 + 8 * Reg.b.id)] ∧
    Fetches (placed [0x3C]) [BitVec.ofNat 8 (0x04 + 8 * Reg.a.id)] :=
  by decide
theorem witness_InrMemory : Fetches (placed [0x34]) [0x34] := by decide
theorem witness_DcrRegister : Fetches (placed [0x05]) [BitVec.ofNat 8 (0x05 + 8 * Reg.b.id)] ∧
    Fetches (placed [0x3D]) [BitVec.ofNat 8 (0x05 + 8 * Reg.a.id)] :=
  by decide
theorem witness_DcrMemory : Fetches (placed [0x35]) [0x35] := by decide
theorem witness_AddToAccumulator : Fetches (placed [0x80]) [BitVec.ofNat 8 (0x80 + Reg.b.id)] ∧
    Fetches (placed [0x87]) [BitVec.ofNat 8 (0x80 + Reg.a.id)] ∧ Fetches (placed [0x86]) [0x86] :=
  by decide
theorem witness_AddWithCarryToAccumulator : Fetches (placed [0x88]) [BitVec.ofNat 8 (0x88 + Reg.b.id)] ∧
    Fetches (placed [0x8F]) [BitVec.ofNat 8 (0x88 + Reg.a.id)] ∧ Fetches (placed [0x8E]) [0x8E] :=
  by decide
theorem witness_SubtractFromAccumulator : Fetches (placed [0x90]) [BitVec.ofNat 8 (0x90 + Reg.b.id)] ∧
    Fetches (placed [0x97]) [BitVec.ofNat 8 (0x90 + Reg.a.id)] ∧ Fetches (placed [0x96]) [0x96] :=
  by decide
theorem witness_SubtractWithBorrowFromAccumulator : Fetches (placed [0x98]) [BitVec.ofNat 8 (0x98 + Reg.b.id)] ∧
    Fetches (placed [0x9F]) [BitVec.ofNat 8 (0x98 + Reg.a.id)] ∧ Fetches (placed [0x9E]) [0x9E] :=
  by decide
theorem witness_AddImmediates : Fetches (placed [0xC6, 0x42]) [0xC6, 0x42] ∧
    Fetches (placed [0xCE, 0xBE]) [0xCE, 0xBE] :=
  by decide
theorem witness_SubtractImmediates : Fetches (placed [0xD6, 0x01]) [0xD6, 0x01] ∧
    Fetches (placed [0xDE, 0xFF]) [0xDE, 0xFF] :=
  by decide
theorem witness_AndIntoAccumulator : Fetches (placed [0xA0]) [BitVec.ofNat 8 (0xA0 + Reg.b.id)] ∧
    Fetches (placed [0xA7]) [BitVec.ofNat 8 (0xA0 + Reg.a.id)] ∧ Fetches (placed [0xA6]) [0xA6] :=
  by decide
theorem witness_ExclusiveOrIntoAccumulator : Fetches (placed [0xA8]) [BitVec.ofNat 8 (0xA8 + Reg.b.id)] ∧
    Fetches (placed [0xAF]) [BitVec.ofNat 8 (0xA8 + Reg.a.id)] ∧ Fetches (placed [0xAE]) [0xAE] :=
  by decide
theorem witness_OrIntoAccumulator : Fetches (placed [0xB0]) [BitVec.ofNat 8 (0xB0 + Reg.b.id)] ∧
    Fetches (placed [0xB7]) [BitVec.ofNat 8 (0xB0 + Reg.a.id)] ∧ Fetches (placed [0xB6]) [0xB6] :=
  by decide
theorem witness_LogicalImmediates : Fetches (placed [0xE6, 0x0F]) [0xE6, 0x0F] ∧
    Fetches (placed [0xEE, 0x81]) [0xEE, 0x81] ∧
    Fetches (placed [0xF6, 0x0F]) [0xF6, 0x0F] :=
  by decide
theorem witness_CompareWithAccumulator : Fetches (placed [0xB8]) [BitVec.ofNat 8 (0xB8 + Reg.b.id)] ∧
    Fetches (placed [0xBF]) [BitVec.ofNat 8 (0xB8 + Reg.a.id)] ∧ Fetches (placed [0xBE]) [0xBE] :=
  by decide
theorem witness_CompareImmediate : Fetches (placed [0xFE, 0x40]) [0xFE, 0x40] := by decide
theorem witness_HaltEndsTheRun : Fetches (placed [0x76]) [0x76] := by decide
theorem witness_AddThenSubtractRestores : Reg.b ≠ Reg.a := by decide
theorem witness_CarryInIsNeverLost : let s := { State.reset.writeReg .b 0xFF with flags := flagBits 0 0 0 1 0 };
    s.flags.carry = true ∧ s.readReg .b = 0xFF :=
  by decide
theorem witness_AccumulatorWithItself : State.reset.flags.carry = false ∧ (State.reset.setFlags (flagBits 0 0 0 1 0)).flags.carry = true ∧
    Instr.sub (.reg .a) ∈ [Instr.sub (.reg .a), .xra (.reg .a)] ∧ Instr.ora (.reg .a) ∈ [Instr.ana (.reg .a), .ora (.reg .a)] :=
  by decide
theorem witness_OnlyCarryIsEverRead : AgreeButUnreadFlags (placed [0x88]) ((placed [0x88]).setFlags (flagBits 1 1 1 0 1)) ∧
    (placed [0x88]).status = .running ∧ (placed [0x88]).flags ≠ ((placed [0x88]).setFlags (flagBits 1 1 1 0 1)).flags :=
  ⟨⟨fun q => by cases q <;> rfl, rfl, rfl, rfl, rfl, rfl⟩, by decide, by decide⟩
theorem witness_StackPointerNeverChanges : ∃ t, step (placed [0x3C]) = .next t :=
  ⟨_, rfl⟩
theorem witness_StoresGoToHLAlone : (nextOf (step (placed [0x36, 0x99]))).map (fun t => decide (t.memRead 0 ≠ (placed [0x36, 0x99]).memRead 0)) = some true :=
  by decide
theorem witness_FlagsLeftAlone : (∀ op ∈ ([0x40, 0x7F, 0x06, 0x3E, 0x00, 0xFF, 0x04, 0x3D, 0xA0, 0xB7, 0xE6, 0xF6] : List Byte),
    (nextOf (step (placed [op]))).isSome = true) ∧ (0x40 : Byte).toNat / 64 = 1 ∧ (0x7F : Byte).toNat / 64 = 1 ∧
    (0x06 : Byte) &&& 0xC7 = 0x06 ∧ (0x3E : Byte) &&& 0xC7 = 0x06 ∧ (0x00 : Byte) ∈ undefinedOpcodes ∧
    (0xFF : Byte) ∈ undefinedOpcodes ∧ (0x04 : Byte) &&& 0xC6 = 0x04 ∧ (0x3D : Byte) &&& 0xC6 = 0x04 ∧
    0xA0 ≤ (0xA0 : Byte).toNat ∧ (0xB7 : Byte).toNat < 0xB8 ∧ (0xF6 : Byte) ∈ ([0xE6, 0xEE, 0xF6] : List Byte) :=
  by decide
theorem witness_StoreSeenByTheNextFetch : (let s := atHL [0x70] 0 1 0 0 (flagBits 0 0 0 0 0);
      s.status = .running ∧ s.memRead s.pc = BitVec.ofNat 8 (0x70 + Reg.b.id) ∧ s.readPair .hl = s.pc + 1) ∧
    (let s := atHL [0x70] 0 2 0 0 (flagBits 0 0 0 0 0);
      s.status = .running ∧ s.memRead s.pc = BitVec.ofNat 8 (0x70 + Reg.b.id) ∧ s.readPair .hl = s.pc + 2) ∧
    (let s := atHL [0x77] 0 1 0 0 (flagBits 0 0 0 0 0);
      s.status = .running ∧ s.memRead s.pc = BitVec.ofNat 8 (0x70 + Reg.a.id) ∧ s.readPair .hl = s.pc + 1) ∧
    (let s := atHL [0x36, 0x3C] 0 2 0 0x3D (flagBits 0 0 0 0 0);
      s.status = .running ∧ s.memRead s.pc = 0x36 ∧ s.readPair .hl = s.pc + 2) ∧
    (let s := atHL [0x36, 0x3C] 0 3 0 0x3D (flagBits 0 0 0 0 0);
      s.status = .running ∧ s.memRead s.pc = 0x36 ∧ s.readPair .hl = s.pc + 3) ∧
    (let s := atHL [0x34] 0 1 0 0x3C (flagBits 0 0 0 0 0);
      s.status = .running ∧ s.memRead s.pc = 0x34 ∧ s.readPair .hl = s.pc + 1) ∧
    (let s := atHL [0x34] 0 2 0 0x3C (flagBits 0 0 0 0 0);
      s.status = .running ∧ s.memRead s.pc = 0x34 ∧ s.readPair .hl = s.pc + 2) ∧
    (let s := atHL [0x35] 0 1 0 0x3C (flagBits 0 0 0 0 0);
      s.status = .running ∧ s.memRead s.pc = 0x35 ∧ s.readPair .hl = s.pc + 1) ∧
    (let s := atHL [0x35] 0 2 0 0x3C (flagBits 0 0 0 0 0);
      s.status = .running ∧ s.memRead s.pc = 0x35 ∧ s.readPair .hl = s.pc + 2) :=
  by decide
theorem witness_SelfMoveChangesOnlyPc : Fetches (placed [0x5B]) [BitVec.ofNat 8 (0x40 + 9 * Reg.e.id)] :=
  by decide
theorem witness_ImageIsCopiedFromAddressZero : (([0x3E, 0x76] : List Byte).getLast? = some 0x76 ∧ ([0x3E, 0x76] : List Byte).length ≤ 65536) ∧
    ([0x3C] : List Byte).getLast? ≠ some 0x76 ∧ ([] : List Byte).getLast? ≠ some 0x76 ∧
    ∃ image : List Byte, image.getLast? ≠ some 0x76 ∧ 65536 < (image ++ [0x76]).length :=
  ⟨by decide, by decide, by decide, _, longImage 65536⟩

end Sys2Proof.Tests
end

/-! PROOFS. The statements about the state of `10_state.md`: the register file by numeric id (R13) and the register
pairs (R15). -/

namespace Sys2Proof.Machine

/-- The table of register ids (`10_state.md` R11) agrees with `Reg.id`. -/
theorem eq_id_of_mem_idTable {id : Nat} {r : Reg}
    (h : (id, r) ∈ [(0, Reg.b), (1, .c), (2, .d), (3, .e), (4, .h), (5, .l), (7, .a)]) : id = r.id :=
  (by decide : ∀ p ∈ [(0, Reg.b), (1, .c), (2, .d), (3, .e), (4, .h), (5, .l), (7, .a)], p.1 = p.2.id) _ h

@[simp] theorem regRead_id (s : State) (r : Reg) : s.regRead r.id = .ok (s.readReg r) := by
  simp [State.regRead]

@[simp] theorem regWrite_id (s : State) (r : Reg) (v : Byte) : s.regWrite r.id v = .ok (s.writeReg r v) := by
  simp [State.regWrite]

theorem regOfId_eq_none {id : Nat} (h : id ∉ [0, 1, 2, 3, 4, 5, 7]) : regOfId id = none := by
  refine Option.eq_none_iff_forall_ne_some.mpr fun r hr => h ?_
  rw [regOfId_eq_some.mp hr]
  cases r <;> decide

theorem regRead_invalid (s : State) {id : Nat} (h : id ∉ [0, 1, 2, 3, 4, 5, 7]) :
    s.regRead id = .error .invalidRegisterId := by
  simp [State.regRead, regOfId_eq_none h]

theorem regWrite_invalid (s : State) {id : Nat} (v : Byte) (h : id ∉ [0, 1, 2, 3, 4, 5, 7]) :
    s.regWrite id v = .error .invalidRegisterId := by
  simp [State.regWrite, regOfId_eq_none h]

/-- The status a handler with an encoding leaves, whatever state it answers. -/
theorem exec_status {i : Instr} {s t : State} (hwf : i.wellFormed = true) (h : exec i s = .next t) :
    t.status = statusAfter i s := by
  obtain ⟨t', hexec, -, -, -, hstatus⟩ := exec_keeps hwf s
  obtain rfl : t = t' := by simpa [h] using hexec
  exact hstatus

/-- The one fatal condition a step can end in is `UnimplementedOpcode`, with the byte it fetched: no handler that a
step can reach raises one (`60_exceptions.md` R131 to R133). -/
theorem step_faulted {s t : State} {c : FatalCondition} (h : step s = .next t) (hf : t.status = .faulted c) :
    c = .unimplementedOpcode (s.memRead s.pc) := by
  obtain ⟨hrun, ⟨-, rfl⟩ | ⟨i, imm, -, hwf, -, hexec⟩⟩ := step_cases h
  · simpa [eq_comm] using hf
  · rw [exec_status hwf hexec, statusAfter, setPc_status, hrun] at hf
    split at hf <;> cases hf

/-- The table of pairs (`10_state.md` R15) agrees with `PairId.regs`. -/
theorem eq_regs_of_mem_pairTable {p : PairId} {hi lo : Reg}
    (h : (p, hi, lo) ∈ [(PairId.bc, Reg.b, Reg.c), (.de, .d, .e), (.hl, .h, .l)]) :
    hi = p.regs.1 ∧ lo = p.regs.2 :=
  (by decide : ∀ q ∈ [(PairId.bc, Reg.b, Reg.c), (.de, .d, .e), (.hl, .h, .l)],
    q.2.1 = q.1.regs.1 ∧ q.2.2 = q.1.regs.2) _ h

theorem pair_high_ne_low (p : PairId) : p.regs.1 ≠ p.regs.2 := by
  cases p <;> decide

theorem readPair_toNat (s : State) (p : PairId) :
    (s.readPair p).toNat = (s.readReg p.regs.1).toNat * 256 + (s.readReg p.regs.2).toNat :=
  pairValue_toNat _ _

theorem readPair_writeReg_high_low (s : State) (p : PairId) (u v : Byte) :
    ((s.writeReg p.regs.1 u).writeReg p.regs.2 v).readPair p = pairValue u v := by
  simp [State.readPair, pair_high_ne_low p]

theorem readPair_writeReg_low_high (s : State) (p : PairId) (u v : Byte) :
    ((s.writeReg p.regs.2 v).writeReg p.regs.1 u).readPair p = pairValue u v := by
  simp [State.readPair, (pair_high_ne_low p).symm]

end Sys2Proof.Machine

namespace Sys2Proof

open Machine

/-- Settles O5: an id of the table is `Reg.id` of its register, where the numeric accessors are the typed ones; any
other id has no register; and a step faults with `UnimplementedOpcode` alone. -/
theorem registerFileContract : Obligations.RegisterFileContract := by
  refine ⟨fun s id r v hid => ?_, fun s id v hid => ⟨regRead_invalid s hid, regWrite_invalid s v hid⟩,
    fun s t h hf => ?_⟩
  · obtain rfl := eq_id_of_mem_idTable hid
    exact ⟨regRead_id s r, s.writeReg r v, regWrite_id s r v, readReg_writeReg_same s r v, by simp,
      fun q hq => readReg_writeReg_other s r q v hq, writeReg_pc s r v, writeReg_sp s r v, writeReg_flags s r v,
      writeReg_mem s r v, writeReg_status s r v⟩
  · cases step_faulted h hf

/-- Settles O6: a pair is computed from its two registers, which are distinct, so neither write undoes the other. -/
theorem pairsFollowTheirRegisters : Obligations.PairsFollowTheirRegisters := by
  intro s p hi lo hp
  obtain ⟨rfl, rfl⟩ := eq_regs_of_mem_pairTable hp
  refine ⟨readPair_toNat s p, fun u v => ⟨?_, ?_⟩⟩
  · rw [readPair_writeReg_high_low, pairValue_toNat]
  · rw [readPair_writeReg_low_high, pairValue_toNat]

end Sys2Proof

/-! PROOFS. The statement about the memory primitives of `20_memory.md` (R31). -/

namespace Sys2Proof.Machine

/-- A write leaves every cell but its own as it was (`20_memory.md` R31). -/
theorem memRead_memWrite_other (s : State) {x y : Word} (v : Byte) (h : y ≠ x) :
    (s.memWrite x v).memRead y = s.memRead y := by
  rw [memRead_memWrite, if_neg h]

end Sys2Proof.Machine

namespace Sys2Proof

open Machine

/-- Settles O4: the two cell clauses are the two cases of `memRead_memWrite`; the rest is the frame of `memWrite`,
which replaces the memory field alone. -/
theorem memoryHoldsWhatWasWritten : Obligations.MemoryHoldsWhatWasWritten := by
  intro s x v
  exact ⟨memRead_memWrite_same s x v, fun y hy => memRead_memWrite_other s v hy, fun q => memWrite_readReg s q v x,
    memWrite_flags s v x, memWrite_pc s v x, memWrite_sp s v x, memWrite_status s v x⟩

end Sys2Proof

/-! PROOFS. The statements about the operand resolver and the flag derivations of `40_operands_and_flags.md`: source
fields (R71) and `SetZSP` (R76 to R79). -/

namespace Sys2Proof.Machine

open Claims

/-- A field that holds a register's id names that register, and not memory: 6 is no register's id. -/
theorem ofField_eq_reg {f : BitVec 3} {r : Reg} (h : f.toNat = r.id) : Operand.ofField f = .reg r := by
  obtain rfl : f = BitVec.ofNat 3 r.id := by rw [← h, BitVec.ofNat_toNat, BitVec.setWidth_eq]
  cases r <;> rfl

/-- The most significant bit of a byte is its 128s bit (`40_operands_and_flags.md` R77). -/
theorem getLsbD_seven_iff (r : Byte) : r.getLsbD 7 = true ↔ 128 ≤ r.toNat := by
  have hmsb : r.getLsbD 7 = r.msb := (BitVec.msb_eq_getLsbD_last r).symm
  rw [hmsb, BitVec.msb_eq_decide, decide_eq_true_iff]

/-- The model's count of one bits decides the parity of the byte as a number (`40_operands_and_flags.md` R78). -/
theorem popcount_even_iff (r : Byte) : popcount r % 2 = 0 ↔ EvenOnes r := by
  unfold popcount EvenOnes
  rw [List.countP_eq_length_filter]
  rfl

/-- `SetZSP(r)` leaves the zero, sign and parity flags of `r`, whatever flags it started from. -/
theorem zeroSignParityOf_setZSP (r : Byte) (f : Flags) : ZeroSignParityOf r (setZSP r f) := by
  refine ⟨?zero, ?sign, ?parity⟩
  case zero =>
    rw [setZSP_zero, beq_iff_eq]
    exact BitVec.toNat_inj.symm
  case sign => rw [setZSP_sign, getLsbD_seven_iff]
  case parity => rw [setZSP_parity, beq_iff_eq, popcount_even_iff]

end Sys2Proof.Machine

namespace Sys2Proof

open Machine

/-- Settles O7: the field read is the handlers' operand read, and the operand of a field is memory at HL for 6 and the
register for a register's id. -/
theorem sourceFieldResolution : Obligations.SourceFieldResolution := by
  intro s f
  refine ⟨?memory, ?register, readField_eq s f⟩
  case memory =>
    rintro rfl
    exact readField_eq s 6
  case register =>
    intro r hr
    rw [readField_eq, ofField_eq_reg hr, readOperand_reg]

/-- Settles O9: the three derived flags are those of the byte, and `setZSP` copies the two carries. -/
theorem zeroSignParityDerivation : Obligations.ZeroSignParityDerivation := fun r f =>
  ⟨zeroSignParityOf_setZSP r f, setZSP_carry r f, setZSP_auxiliaryCarry r f⟩

end Sys2Proof

/-! PROOFS. The statement about `MVI r,imm` of `41_data_transfer.md` (R93), from two facts that hold for more than `MVI`:
an instruction's encoding at `pc` runs it, and a register write keeps everything but the register. -/

namespace Sys2Proof.Machine

open Claims

/-- The bytes of an instruction, opcode first, are as many as its opcode byte announces (`30_encoding.md` R64). -/
theorem length_encode {i : Instr} (h : hasImm i.opcode = i.immediate.isSome) :
    (encode i).length = opcodeLength i.opcode := by
  rw [opcodeLength, h, encode]
  cases i.immediate <;> rfl

/-- Past the opcode byte, the fetch of the rest answers the instruction's immediate, and 0 where it has none. -/
theorem fetchRest_of_fetches_encode {i : Instr} {s : State} (himm : hasImm i.opcode = i.immediate.isSome)
    (h : Fetches s (encode i)) : ((s.setPc (s.pc + 1)).fetchRest i.opcode).1 = i.immediate.getD 0 := by
  obtain ⟨-, hbytes⟩ := h
  rw [State.fetchRest, himm]
  rw [encode] at hbytes
  cases hi : i.immediate with
  | none => rfl
  | some v =>
    rw [hi] at hbytes
    obtain ⟨-, hv⟩ : s.memRead s.pc = i.opcode ∧ s.memRead (s.pc + 1) = v := by
      simpa [State.readBytes] using hbytes
    exact hv

/-- Where memory holds the encoding of an instruction at `pc`, a step runs it with `pc` past the encoding. -/
theorem runsAs_encode {i : Instr} (hwf : i.wellFormed = true) (hround : Laws.OpcodeRoundTrip.Statement i) (s : State) :
    RunsAs s (encode i) i := by
  intro hfetch
  obtain ⟨himm, hdecode⟩ := hround hwf
  have hopcode : s.memRead s.pc = i.opcode := (List.cons_eq_cons.mp hfetch.2).1
  rw [← fetchRest_of_fetches_encode himm hfetch] at hdecode
  rw [step_running hfetch.1, hopcode, dispatch_defined hdecode, fetchRest_state, setPc_pc, add_one_add,
    one_add_opcodeLength, length_encode himm]
  rfl

/-- `MVI dst,imm` is one operand write (`41_data_transfer.md` R93, R94). -/
theorem exec_mvi (dst : Operand) (imm : Byte) (s : State) :
    exec (.mvi dst imm) s = .next (s.writeOperand dst imm) := rfl

/-- A register write keeps everything but that register. -/
theorem writeReg_keepsAllBut (s : State) (r : Reg) (v : Byte) : KeepsAllBut [r] s (s.writeReg r v) :=
  ⟨fun q hq => readReg_writeReg_other s r q v (List.ne_of_not_mem_cons hq), writeReg_pc s r v, writeReg_sp s r v,
    writeReg_status s r v, fun x => writeReg_memRead s r v x⟩

end Sys2Proof.Machine

namespace Sys2Proof

open Machine

/-- Settles O22: the two bytes are the encoding of `MVI r,v`, which the round trip of `MVI` runs; its handler is one
register write. -/
theorem mviToRegister : Obligations.MviToRegister := by
  intro r v s
  refine ⟨runsAs_encode rfl (Laws.OpcodeRoundTrip.mvi (.reg r) v) s, s.writeReg r v, ?_, readReg_writeReg_same s r v,
    writeReg_flags s r v, writeReg_keepsAllBut s r v⟩
  rw [exec_mvi, writeOperand_reg]

end Sys2Proof

/-! PROOFS. The statements about `INR` and `DCR` of `42_increment_decrement.md` (R95 to R98). The two units of
`40_operands_and_flags.md` meet R82 and R83; `INR` and `DCR` are those units at 1 with the old carry (R87), and their
handlers are one update in place. -/

namespace Sys2Proof.Machine

open Claims

/-- The addition unit meets `40_operands_and_flags.md` R82. -/
theorem isSum_addFlags (a b : Byte) (c : Bool) : IsSum a b c (addFlags a b c).1 (addFlags a b c).2 := by
  refine ⟨addFlags_result_toNat a b c, ?zeroSignParity, ?carry, ?auxiliaryCarry⟩ <;> rw [addFlags_flags]
  case zeroSignParity => exact zeroSignParityOf_setZSP _ _
  case carry => rw [setZSP_carry, decide_eq_true_iff, gt_iff_lt]
  case auxiliaryCarry => rw [setZSP_auxiliaryCarry, decide_eq_true_iff, gt_iff_lt, lowNibble, lowNibble]

/-- The subtraction unit meets `40_operands_and_flags.md` R83. -/
theorem isDifference_subFlags (a b : Byte) (c : Bool) :
    IsDifference a b c (subFlags a b c).1 (subFlags a b c).2 := by
  refine ⟨subFlags_result_toNat a b c, ?zeroSignParity, ?carry, ?auxiliaryCarry⟩ <;> rw [subFlags_flags]
  case zeroSignParity => exact zeroSignParityOf_setZSP _ _
  case carry => rw [setZSP_carry, decide_eq_true_iff, gt_iff_lt]
  case auxiliaryCarry => rw [setZSP_auxiliaryCarry, decide_eq_true_iff, lowNibble, lowNibble]

/-- A low nibble plus 1 exceeds 15 exactly where the nibble is 15. -/
theorem isIncrement_incFlags (v : Byte) (f : Flags) : IsIncrement v f (incFlags v f).1 (incFlags v f).2 := by
  obtain ⟨hresult, hzsp, -, haux⟩ := isSum_addFlags v 1 false
  refine ⟨hresult, hzsp, incFlags_carry v f, haux.trans ?_⟩
  have hone : (1 : Byte).toNat = 1 := rfl
  rw [hone, Bool.toNat_false]
  omega

/-- A low nibble is below 1 exactly where it is 0. -/
theorem isDecrement_decFlags (v : Byte) (f : Flags) : IsDecrement v f (decFlags v f).1 (decFlags v f).2 := by
  obtain ⟨hresult, hzsp, -, haux⟩ := isDifference_subFlags v 1 false
  have hone : (1 : Byte).toNat = 1 := rfl
  rw [hone, Bool.toNat_false] at hresult haux
  refine ⟨hresult.trans ?_, hzsp, decFlags_carry v f, haux.trans ?_⟩ <;> omega

/-- `INR dst` is an update in place by `incFlags` (`42_increment_decrement.md` R95, R96). -/
theorem exec_inr (dst : Operand) (s : State) : exec (.inr dst) s = .next (s.updateInPlace dst incFlags) := rfl

/-- `DCR dst` is an update in place by `decFlags` (`42_increment_decrement.md` R97, R98). -/
theorem exec_dcr (dst : Operand) (s : State) : exec (.dcr dst) s = .next (s.updateInPlace dst decFlags) := rfl

/-- A memory write keeps everything but its byte. -/
theorem memWrite_keepsAllButByte (s : State) (x : Word) (v : Byte) : KeepsAllButByte x s (s.memWrite x v) :=
  ⟨fun q => memWrite_readReg s q v x, memWrite_pc s v x, memWrite_sp s v x, memWrite_status s v x,
    fun _ hy => memRead_memWrite_other s v hy⟩

section UpdateInPlace
variable (s : State) (r : Reg) (f : Byte → Flags → Byte × Flags)

theorem updateInPlace_flags (dst : Operand) :
    (s.updateInPlace dst f).flags = (f (s.readOperand dst) s.flags).2 := rfl

theorem updateInPlace_reg_readReg : (s.updateInPlace (.reg r) f).readReg r = (f (s.readReg r) s.flags).1 := by
  simp [updateInPlace_eq]

theorem updateInPlace_mem_memRead :
    (s.updateInPlace .mem f).memRead (s.readPair .hl) = (f (s.memRead (s.readPair .hl)) s.flags).1 := by
  simp [updateInPlace_eq]

/-- Setting the flags is outside the frame, so the frame is that of the register write. -/
theorem updateInPlace_reg_keepsAllBut : KeepsAllBut [r] s (s.updateInPlace (.reg r) f) :=
  writeReg_keepsAllBut s r _

/-- Setting the flags is outside the frame, so the frame is that of the memory write. -/
theorem updateInPlace_mem_keepsAllButByte : KeepsAllButByte (s.readPair .hl) s (s.updateInPlace .mem f) :=
  memWrite_keepsAllButByte s _ _

end UpdateInPlace

end Sys2Proof.Machine

namespace Sys2Proof

open Machine

/-- Settles O24: `INR r` updates the register in place by `incFlags`, which is an increment. -/
theorem inrRegister : Obligations.InrRegister := by
  intro r s
  refine ⟨runsAs_encode rfl (Laws.OpcodeRoundTrip.inr (.reg r)) s, _, exec_inr (.reg r) s, ?_,
    updateInPlace_reg_keepsAllBut s r incFlags⟩
  rw [updateInPlace_reg_readReg, updateInPlace_flags, readOperand_reg]
  exact isIncrement_incFlags _ _

/-- Settles O25: `INR M` updates the byte at HL in place by `incFlags`, which is an increment. -/
theorem inrMemory : Obligations.InrMemory := by
  intro s
  refine ⟨runsAs_encode rfl (Laws.OpcodeRoundTrip.inr .mem) s, _, exec_inr .mem s, ?_,
    updateInPlace_mem_keepsAllButByte s incFlags⟩
  rw [updateInPlace_mem_memRead, updateInPlace_flags, readOperand_mem]
  exact isIncrement_incFlags _ _

/-- Settles O26: `DCR r` updates the register in place by `decFlags`, which is a decrement. -/
theorem dcrRegister : Obligations.DcrRegister := by
  intro r s
  refine ⟨runsAs_encode rfl (Laws.OpcodeRoundTrip.dcr (.reg r)) s, _, exec_dcr (.reg r) s, ?_,
    updateInPlace_reg_keepsAllBut s r decFlags⟩
  rw [updateInPlace_reg_readReg, updateInPlace_flags, readOperand_reg]
  exact isDecrement_decFlags _ _

/-- Settles O27: `DCR M` updates the byte at HL in place by `decFlags`, which is a decrement. -/
theorem dcrMemory : Obligations.DcrMemory := by
  intro s
  refine ⟨runsAs_encode rfl (Laws.OpcodeRoundTrip.dcr .mem) s, _, exec_dcr .mem s, ?_,
    updateInPlace_mem_keepsAllButByte s decFlags⟩
  rw [updateInPlace_mem_memRead, updateInPlace_flags, readOperand_mem]
  exact isDecrement_decFlags _ _

end Sys2Proof

/-! PROOFS. The statements about `ANA`, `XRA` and `ORA` of `44_logical_compare.md` (R112, R113, R115, R116, R118, R119).
Each handler is one update of A by `logicToA`, which meets `LogicalIntoA` whatever the result byte is. -/

namespace Sys2Proof.Machine

open Claims

/-- The flags of a logical result are those of `SetZSP` with both carries cleared (`40_operands_and_flags.md` R86). -/
theorem logicalFlags_logicFlags (r : Byte) (f : Flags) : LogicalFlags r (logicFlags r f) :=
  ⟨zeroSignParityOf_setZSP r f, logicFlags_carry r f, logicFlags_auxiliaryCarry r f⟩

/-- Setting the flags is outside the frame, so the frame is that of the write to A. -/
theorem logicToA_keepsAllBut (s : State) (r : Byte) : KeepsAllBut [.a] s (s.logicToA r) :=
  writeReg_keepsAllBut s .a r

/-- The shared update puts its byte in A with that byte's logical flags, and changes nothing else. -/
theorem logicalIntoA_logicToA (s : State) (r : Byte) : LogicalIntoA s r (s.logicToA r) := by
  refine ⟨?result, logicalFlags_logicFlags r s.flags, logicToA_keepsAllBut s r⟩
  case result => rw [logicToA_readReg, if_pos rfl]

/-- `ANA src` is the shared update at the bitwise and (`44_logical_compare.md` R112, R113). -/
theorem exec_ana (src : Operand) (s : State) :
    exec (.ana src) s = .next (s.logicToA (s.readReg .a &&& s.readOperand src)) := rfl

/-- `XRA src` is the shared update at the bitwise exclusive or (`44_logical_compare.md` R115, R116). -/
theorem exec_xra (src : Operand) (s : State) :
    exec (.xra src) s = .next (s.logicToA (s.readReg .a ^^^ s.readOperand src)) := rfl

/-- `ORA src` is the shared update at the bitwise or (`44_logical_compare.md` R118, R119). -/
theorem exec_ora (src : Operand) (s : State) :
    exec (.ora src) s = .next (s.logicToA (s.readReg .a ||| s.readOperand src)) := rfl

end Sys2Proof.Machine

namespace Sys2Proof

open Machine

/-- Settles O34: each byte is the encoding of its form of `ANA`, which the round trip of `ANA` runs; the handler is the
shared update at the bitwise and with the operand, read from the register or at HL. -/
theorem andIntoAccumulator : Obligations.AndIntoAccumulator := by
  intro s
  exact ⟨fun r => ⟨runsAs_encode rfl (Laws.OpcodeRoundTrip.ana (.reg r)) s, _, exec_ana (.reg r) s,
      logicalIntoA_logicToA s _⟩,
    runsAs_encode rfl (Laws.OpcodeRoundTrip.ana .mem) s, _, exec_ana .mem s, logicalIntoA_logicToA s _⟩

/-- Settles O35: each byte is the encoding of its form of `XRA`, which the round trip of `XRA` runs; the handler is the
shared update at the bitwise exclusive or with the operand, read from the register or at HL. -/
theorem exclusiveOrIntoAccumulator : Obligations.ExclusiveOrIntoAccumulator := by
  intro s
  exact ⟨fun r => ⟨runsAs_encode rfl (Laws.OpcodeRoundTrip.xra (.reg r)) s, _, exec_xra (.reg r) s,
      logicalIntoA_logicToA s _⟩,
    runsAs_encode rfl (Laws.OpcodeRoundTrip.xra .mem) s, _, exec_xra .mem s, logicalIntoA_logicToA s _⟩

/-- Settles O36: each byte is the encoding of its form of `ORA`, which the round trip of `ORA` runs; the handler is the
shared update at the bitwise or with the operand, read from the register or at HL. -/
theorem orIntoAccumulator : Obligations.OrIntoAccumulator := by
  intro s
  exact ⟨fun r => ⟨runsAs_encode rfl (Laws.OpcodeRoundTrip.ora (.reg r)) s, _, exec_ora (.reg r) s,
      logicalIntoA_logicToA s _⟩,
    runsAs_encode rfl (Laws.OpcodeRoundTrip.ora .mem) s, _, exec_ora .mem s, logicalIntoA_logicToA s _⟩

end Sys2Proof

/-! PROOFS. The statements about the decoder and the encoder of `30_encoding.md` (sections 1 to 7): each inverts the
other, and a step runs what the bytes at `pc` decode to. -/

namespace Sys2Proof

/-- The round trip of the opcode byte, constructor by constructor. -/
theorem Laws.OpcodeRoundTrip.all (i : Instr) : Laws.OpcodeRoundTrip.Statement i := by
  cases i with
  | mov dst src => exact mov dst src
  | mvi dst imm => exact mvi dst imm
  | inr dst => exact inr dst
  | dcr dst => exact dcr dst
  | add src => exact add src
  | adc src => exact adc src
  | sub src => exact sub src
  | sbb src => exact sbb src
  | ana src => exact ana src
  | xra src => exact xra src
  | ora src => exact ora src
  | cmp src => exact cmp src
  | adi imm => exact adi imm
  | aci imm => exact aci imm
  | sui imm => exact sui imm
  | sbi imm => exact sbi imm
  | ani imm => exact ani imm
  | xri imm => exact xri imm
  | ori imm => exact ori imm
  | cpi imm => exact cpi imm
  | hlt => exact hlt

/-- The two ways the decoder reads an instruction: from two bytes where the opcode announces an immediate, from the
opcode alone, with 0 for the unused immediate, where it does not (`30_encoding.md` R61, R64). -/
theorem decode_eq_ok_iff {bs rest : List Byte} {i : Instr} :
    decode bs = .ok (i, rest) ↔ ∃ op imm, decodeOp op imm = some i ∧
      (hasImm op = true ∧ bs = op :: imm :: rest ∨ hasImm op = false ∧ imm = 0 ∧ bs = op :: rest) := by
  constructor
  · intro h
    unfold decode at h
    split at h
    · cases h
    next op bytes =>
      split at h
      next him =>
        split at h
        · cases h
        next imm rest' =>
          split at h
          next hop => cases h; exact ⟨op, imm, hop, .inl ⟨him, rfl⟩⟩
          · cases h
      next him =>
        split at h
        next hop => cases h; exact ⟨op, 0, hop, .inr ⟨by simpa using him, rfl, rfl⟩⟩
        · cases h
  · rintro ⟨op, imm, hop, ⟨him, rfl⟩ | ⟨him, rfl, rfl⟩⟩
    · simp only [decode, him, if_true, hop]
    · simp only [decode, him, Bool.false_eq_true, if_false, hop]

/-- Settles O10: the opcode byte of a well-formed instruction classifies back to it and announces an immediate exactly
where the instruction has one, so the decoder takes the bytes of the encoding and no more. -/
theorem decodeInvertsEncode : Obligations.DecodeInvertsEncode := by
  intro i rest hwf
  obtain ⟨him, hop⟩ := Laws.OpcodeRoundTrip.all i hwf
  refine decode_eq_ok_iff.mpr ⟨i.opcode, i.immediate.getD 0, hop, ?_⟩
  rw [encode, him]
  cases i.immediate with
  | none => exact .inr ⟨rfl, rfl, rfl⟩
  | some v => exact .inl ⟨rfl, rfl⟩

/-- Settles O11: the classifier answers well-formed instructions alone, with the byte read for opcode and the byte after
it for immediate where the opcode announces one. -/
theorem encodeInvertsDecode : Obligations.EncodeInvertsDecode := by
  intro bs rest i h
  obtain ⟨op, imm, hop, hbytes⟩ := decode_eq_ok_iff.mp h
  obtain ⟨hopcode, himm⟩ := decodeOp_encoding hop
  refine ⟨decodeOp_wellFormed hop, ?_⟩
  rw [encode, hopcode, himm]
  rcases hbytes with ⟨him, rfl⟩ | ⟨him, -, rfl⟩ <;> rw [him] <;> rfl

/-- Settles O12: six fixed words, evaluated. -/
theorem sourceSpelledWords : Obligations.SourceSpelledWords := by
  unfold Obligations.SourceSpelledWords
  decide

end Sys2Proof

namespace Sys2Proof.Machine

/-- Where memory from `x` up begins with `bs`, reading as many bytes as `bs` has gives `bs`. -/
theorem readBytes_length_of_eq_append {s : State} {bs rest : List Byte} {x : Word} {n : Nat}
    (h : s.readBytes x n = bs ++ rest) : s.readBytes x bs.length = bs := by
  induction bs generalizing x n with
  | nil => rfl
  | cons b bs ih =>
    cases n with
    | zero => cases h
    | succ n =>
      obtain ⟨hb, hbs⟩ := List.cons_eq_cons.mp h
      exact congrArg₂ List.cons hb (ih hbs)

end Sys2Proof.Machine

namespace Sys2Proof

open Machine

/-- Settles O13: what is decoded at `pc` is encoded at `pc`, and an encoding at `pc` runs. -/
theorem stepRunsDecodedInstruction : Obligations.StepRunsDecodedInstruction := by
  intro s i rest hrun hwf hdecode
  have hbytes : encode i ++ rest = s.readBytes s.pc 2 := (encodeInvertsDecode _ rest i hdecode).2
  exact runsAs_encode hwf (Laws.OpcodeRoundTrip.all i) s ⟨hrun, readBytes_length_of_eq_append hbytes.symm⟩

end Sys2Proof

/-! PROOFS. What a step does to the run status, `pc`, `sp`, memory and the flags, by the byte at `pc`, and the statements
about every step that follow from it (`10_state.md`, `20_memory.md`, `30_encoding.md`, `60_exceptions.md`). -/

namespace Sys2Proof.Machine

open Claims

section Exec
variable (src : Operand) (imm : Byte) (s : State)

/-! The meanings in terms of the shared operations, beside those of `MVI`, `INR`, `DCR`, `ANA`, `XRA` and `ORA` above. -/

/-- `MOV` with an encoding is an operand read and an operand write (`41_data_transfer.md` R90 to R92). -/
theorem exec_mov {dst src : Operand} (h : (Instr.mov dst src).wellFormed = true) :
    exec (.mov dst src) s = .next (s.writeOperand dst (s.readOperand src)) := execMov_eq h s

theorem exec_add : exec (.add src) s = .next (s.addToA (s.readOperand src) false) := rfl
theorem exec_adc : exec (.adc src) s = .next (s.addToA (s.readOperand src) s.flags.carry) := rfl
theorem exec_sub : exec (.sub src) s = .next (s.subFromA (s.readOperand src) false) := rfl
theorem exec_sbb : exec (.sbb src) s = .next (s.subFromA (s.readOperand src) s.flags.carry) := rfl
theorem exec_cmp : exec (.cmp src) s = .next (s.compareWithA (s.readOperand src)) := rfl
theorem exec_adi : exec (.adi imm) s = .next (s.addToA imm false) := rfl
theorem exec_aci : exec (.aci imm) s = .next (s.addToA imm s.flags.carry) := rfl
theorem exec_sui : exec (.sui imm) s = .next (s.subFromA imm false) := rfl
theorem exec_sbi : exec (.sbi imm) s = .next (s.subFromA imm s.flags.carry) := rfl
theorem exec_ani : exec (.ani imm) s = .next (s.logicToA (s.readReg .a &&& imm)) := rfl
theorem exec_xri : exec (.xri imm) s = .next (s.logicToA (s.readReg .a ^^^ imm)) := rfl
theorem exec_ori : exec (.ori imm) s = .next (s.logicToA (s.readReg .a ||| imm)) := rfl
theorem exec_cpi : exec (.cpi imm) s = .next (s.compareWithA imm) := rfl
theorem exec_hlt : exec .hlt s = .next s.halt := rfl

end Exec

/-- Dispatch raises `UnimplementedOpcode` on an undefined byte, and on any other runs the well-formed instruction the byte
is read as, after the fetches. -/
theorem dispatch_cases (op : Byte) (s : State) :
    (op ∈ undefinedOpcodes ∧ dispatch op s = .next (s.raiseFatal (.unimplementedOpcode op))) ∨
    ∃ i, decodeOp op (s.fetchRest op).1 = some i ∧ i.wellFormed = true ∧
      dispatch op s = exec i (s.fetchRest op).2 := by
  cases hi : decodeOp op (s.fetchRest op).1 with
  | none =>
    have hu := (decodeOp_eq_none op _).mp hi
    exact .inl ⟨hu, dispatch_undefined hu s⟩
  | some i => exact .inr ⟨i, rfl, decodeOp_wellFormed hi, dispatch_defined hi⟩

theorem opcodeLength_undefined {op : Byte} (h : op ∈ undefinedOpcodes) : opcodeLength op = 1 := by
  simp [opcodeLength, hasImm_undefined h]

/-- After the opcode fetch, at most one more byte is fetched (`30_encoding.md` R64). -/
theorem opcodeLength_sub_one (op : Byte) : opcodeLength op - 1 = 0 ∨ opcodeLength op - 1 = 1 := by
  unfold opcodeLength
  split
  · exact .inr rfl
  · exact .inl rfl

/-- The length of an instruction as its opcode's bit patterns give it (`30_encoding.md` R64). -/
theorem ofNat_opcodeLength (op : Byte) : BitVec.ofNat 16 (opcodeLength op) =
    if op.toNat % 8 = 6 ∧ (op.toNat / 64 = 0 ∨ op.toNat / 64 = 3) then 2 else 1 := by
  revert op
  decide +kernel

/-- No undefined byte stores: the storing opcodes are all classified. -/
theorem not_storing_of_undefined {op : Byte} (h : op ∈ undefinedOpcodes) : op ∉ storingOpcodes := fun hstore =>
  (by decide : ∀ op ∈ storingOpcodes, decodeOp op 0 ≠ none) op hstore ((decodeOp_eq_none op 0).mpr h)

/-- The memory operand has field 6 and no other (`30_encoding.md` R60). -/
theorem toNat_of_ofField_eq_mem {f : BitVec 3} (h : Operand.ofField f = .mem) : f.toNat = 6 := by
  rcases field_cases f with ⟨rfl, -⟩ | ⟨-, r, -, hr⟩
  · rfl
  · rw [h] at hr
    cases hr

/-- A byte of the `MOV` quarter with both fields memory is 0x76 (`30_encoding.md` R53). -/
theorem eq_hlt_of_both_fields_mem {op : Byte} (hdst : Operand.ofField (dstField op) = .mem)
    (hsrc : Operand.ofField (srcField op) = .mem) (hquarter : op.toNat / 64 = 1) : op = 0x76 := by
  have h5to3 := toNat_of_ofField_eq_mem hdst
  have h2to0 := toNat_of_ofField_eq_mem hsrc
  simp only [dstField, srcField, BitVec.extractLsb'_toNat, Nat.shiftRight_eq_div_pow] at h5to3 h2to0
  apply BitVec.eq_of_toNat_eq
  have h76 : (0x76 : Byte).toNat = 118 := rfl
  omega

/-- A running machine has a next state. -/
theorem exists_step {s : State} (h : s.status = .running) : ∃ t, step s = .next t := by
  rw [step_running h]
  rcases dispatch_cases (s.memRead s.pc) (s.setPc (s.pc + 1)) with ⟨-, hd⟩ | ⟨i, -, hwf, hd⟩
  · exact ⟨_, hd⟩
  · obtain ⟨t, ht, -⟩ := exec_keeps hwf ((s.setPc (s.pc + 1)).fetchRest (s.memRead s.pc)).2
    exact ⟨t, hd.trans ht⟩

/-- What `exec_keeps` says, of a known next state. -/
theorem exec_frame {i : Instr} {s t : State} (hwf : i.wellFormed = true) (h : exec i s = .next t) :
    t.pc = s.pc ∧ t.sp = s.sp ∧ ChangesMemoryAtMostAtHL s t := by
  obtain ⟨t', hexec, hpc, hsp, hmem, -⟩ := exec_keeps hwf s
  obtain rfl : t = t' := by simpa [h] using hexec
  exact ⟨hpc, hsp, hmem⟩

/-- Writing an operand changes memory only where the operand is memory. -/
theorem writeOperand_mem_of_ne_mem (s : State) {dst : Operand} (h : dst ≠ .mem) (v : Byte) :
    (s.writeOperand dst v).mem = s.mem := by
  cases dst with
  | reg r => exact writeReg_mem s r v
  | mem => exact absurd rfl h

/-- An instruction changes memory only where its opcode is a storing one (`20_memory.md` R34). -/
theorem exec_mem_of_not_storing {i : Instr} {s t : State} (hwf : i.wellFormed = true) (h : exec i s = .next t)
    (hop : i.opcode ∉ storingOpcodes) : t.mem = s.mem := by
  cases i with
  | mov dst src =>
    rw [exec_mov s hwf] at h
    cases h
    refine writeOperand_mem_of_ne_mem s ?_ _
    rintro rfl
    cases src with
    | reg r => exact hop (by cases r <;> decide)
    | mem => cases hwf
  | mvi dst imm =>
    cases h
    exact writeOperand_mem_of_ne_mem s (by rintro rfl; exact hop (by decide : (0x36 : Byte) ∈ storingOpcodes)) _
  | inr dst =>
    cases h
    exact writeOperand_mem_of_ne_mem s (by rintro rfl; exact hop (by decide : (0x34 : Byte) ∈ storingOpcodes)) _
  | dcr dst =>
    cases h
    exact writeOperand_mem_of_ne_mem s (by rintro rfl; exact hop (by decide : (0x35 : Byte) ∈ storingOpcodes)) _
  | add src => cases h; exact addToA_mem ..
  | adc src => cases h; exact addToA_mem ..
  | sub src => cases h; exact subFromA_mem ..
  | sbb src => cases h; exact subFromA_mem ..
  | ana src => cases h; exact logicToA_mem ..
  | xra src => cases h; exact logicToA_mem ..
  | ora src => cases h; exact logicToA_mem ..
  | cmp src => cases h; rfl
  | adi imm => cases h; exact addToA_mem ..
  | aci imm => cases h; exact addToA_mem ..
  | sui imm => cases h; exact subFromA_mem ..
  | sbi imm => cases h; exact subFromA_mem ..
  | ani imm => cases h; exact logicToA_mem ..
  | xri imm => cases h; exact logicToA_mem ..
  | ori imm => cases h; exact logicToA_mem ..
  | cpi imm => cases h; rfl
  | hlt => cases h; rfl

section Step
variable {s t : State} (h : step s = .next t)
include h

/-- The status a step leaves is decided by the byte at `pc`. -/
theorem step_status : t.status =
    if s.memRead s.pc ∈ undefinedOpcodes then .faulted (.unimplementedOpcode (s.memRead s.pc))
    else if s.memRead s.pc = 0x76 then .halted else .running := by
  obtain ⟨hrun, ⟨hu, rfl⟩ | ⟨i, imm, hop, hwf, -, hexec⟩⟩ := step_cases h
  · rw [if_pos hu, raiseFatal_status]
  · have hdef : s.memRead s.pc ∉ undefinedOpcodes := fun hu => by
      simp [(decodeOp_eq_none _ imm).mpr hu] at hop
    have hhlt : i = .hlt ↔ s.memRead s.pc = 0x76 := by rw [← decodeOp_eq_hlt _ imm, hop, Option.some_inj]
    rw [exec_status hwf hexec, statusAfter, if_neg hdef, setPc_status, hrun]
    simp only [hhlt]

/-- What a step does to `pc`, `sp` and memory, in terms of the state before the fetches. -/
theorem step_frame : t.pc = s.pc + BitVec.ofNat 16 (opcodeLength (s.memRead s.pc)) ∧ t.sp = s.sp ∧
    ChangesMemoryAtMostAtHL s t := by
  obtain ⟨-, ⟨hu, rfl⟩ | ⟨i, imm, -, hwf, -, hexec⟩⟩ := step_cases h
  · exact ⟨by rw [opcodeLength_undefined hu]; rfl, rfl, .inl rfl⟩
  · exact exec_frame hwf hexec

/-- A step changes memory only on a storing opcode. -/
theorem step_mem_of_not_storing (hop : s.memRead s.pc ∉ storingOpcodes) : t.mem = s.mem := by
  obtain ⟨-, ⟨-, rfl⟩ | ⟨i, imm, hi, hwf, -, hexec⟩⟩ := step_cases h
  · rfl
  · rw [← (decodeOp_encoding hi).1] at hop
    exact (exec_mem_of_not_storing hwf hexec hop).trans (setPc_mem s _)

end Step

/-- After a step of length 1 that stores nothing, the opcode byte stands before `pc`. -/
theorem memRead_pc_sub_one {s t : State} (hpc : t.pc = s.pc + BitVec.ofNat 16 1) (hmem : t.mem = s.mem) :
    t.memRead (t.pc - 1) = s.memRead s.pc := by
  have h1 : s.pc + BitVec.ofNat 16 1 - 1 = s.pc := BitVec.add_sub_cancel s.pc 1
  rw [hpc, h1, State.memRead, hmem]
  rfl

end Sys2Proof.Machine

namespace Sys2Proof

open Machine

/-- Settles O3: memory changes at HL alone, by a write, which keeps the canonical form. A step that ends the run was on
0x76 or an undefined byte, by its status; such a byte has length 1 and stores nothing, so it still stands before `pc`. -/
theorem stepKeepsInvariant : Obligations.StepKeepsInvariant := by
  rintro s t ⟨hwf, -⟩ hstep
  obtain ⟨hpc, -, hmem⟩ := step_frame hstep
  have hstatus := step_status hstep
  refine ⟨hmem.wf hwf, ?_⟩
  rw [EndsTruly]
  split_ifs at hstatus with hu hhlt <;> rw [hstatus]
  case pos =>
    rw [opcodeLength_undefined hu] at hpc
    rw [memRead_pc_sub_one hpc (step_mem_of_not_storing hstep (not_storing_of_undefined hu))]
    exact ⟨rfl, hu⟩
  case pos =>
    have hstore : s.memRead s.pc ∉ Claims.storingOpcodes := by rw [hhlt]; decide
    rw [hhlt] at hpc
    exact (memRead_pc_sub_one hpc (step_mem_of_not_storing hstep hstore)).trans hhlt
  case neg => trivial

/-- Settles O14: a running machine has a next state, whose status `step_status` gives; 0x76 is no undefined byte. -/
theorem runningStepOutcome : Obligations.RunningStepOutcome := by
  intro s hrun
  obtain ⟨t, hstep⟩ := exists_step hrun
  have hstatus := step_status hstep
  refine ⟨t, hstep, fun hhlt => ?_, fun hu => ?_, fun hhlt hu => ?_⟩
  · rwa [hhlt, if_neg (by decide), if_pos rfl] at hstatus
  · rwa [if_pos hu] at hstatus
  · rwa [if_neg hu, if_neg hhlt] at hstatus

/-- Settles O15: each ended status is a fault of `step`, and a running machine has a next state. -/
theorem endedRunTakesNoStep : Obligations.EndedRunTakesNoStep := by
  refine fun s => ⟨fun h => ?_, fun c h => ?_, exists_step⟩ <;> rw [step, h]

/-- Settles O16: the fetches move `pc` on by the length of the opcode, and no handler moves it. -/
theorem programCounterAdvance : Obligations.ProgramCounterAdvance := by
  intro s t h
  rw [(step_frame h).1, ofNat_opcodeLength]

/-- Settles O17: an undefined byte raises the fatal condition right after the opcode fetch. -/
theorem undefinedOpcodeFaults : Obligations.UndefinedOpcodeFaults := by
  intro s hrun hu
  exact ⟨_, (step_running hrun).trans (dispatch_undefined hu _), rfl, rfl, fun _ => rfl, rfl, rfl, fun _ => rfl⟩

/-- Settles O18: the handler raises the condition before any access; a step ends in no fatal condition but
`UnimplementedOpcode`; and the one byte of that shape is `HLT`. -/
theorem memoryToMemoryMoveRejected : Obligations.MemoryToMemoryMoveRejected := by
  refine ⟨fun s => ⟨_, rfl, rfl, fun _ => rfl, rfl, rfl, rfl, fun _ => rfl⟩, fun s t h hf => ?_,
    fun op imm hdst hsrc hquarter => ?_⟩
  · cases step_faulted h hf
  · exact (decodeOp_eq_hlt op imm).mpr (eq_hlt_of_both_fields_mem hdst hsrc hquarter)

/-- Settles O45: the fetches and the handlers leave `sp`. -/
theorem stackPointerNeverChanges : Obligations.StackPointerNeverChanges := fun _ _ h => (step_frame h).2.1

/-- Settles O46: memory changes at most by a write at HL, and not at all unless the opcode is a storing one. -/
theorem storesGoToHLAlone : Obligations.StoresGoToHLAlone := by
  intro s t x h hx
  obtain ⟨-, -, hmem⟩ := step_frame h
  refine ⟨not_not.mp fun hne => hx (hmem.memRead hne), not_not.mp fun hop => hx ?_⟩
  rw [State.memRead, step_mem_of_not_storing h hop]
  rfl

/-- Settles O50: an undefined byte leaves `pc` as entered, and a defined one moves it by the immediate fetch alone. -/
theorem dispatchIsTotal : Obligations.DispatchIsTotal := by
  intro op s
  rcases dispatch_cases op s with ⟨-, hd⟩ | ⟨i, -, hwf, hd⟩
  · exact ⟨_, hd, .inl rfl⟩
  · obtain ⟨t, ht, hpc, -⟩ := exec_keeps hwf (s.fetchRest op).2
    refine ⟨t, hd.trans ht, ?_⟩
    rw [hpc, fetchRest_pc]
    rcases opcodeLength_sub_one op with h | h <;> rw [h]
    · exact .inl (BitVec.add_zero s.pc)
    · exact .inr rfl

end Sys2Proof

/-! PROOFS. The statements about flags as such (`10_state.md` section 6): which steps leave which flags, and that no step
reads a flag but carry. -/

namespace Sys2Proof

open Machine

/-- The kinds of rows of the table of `10_state.md` section 6, by the entries that do not depend on a result byte. -/
inductive FlagRule where
  | keepsAll
  | keepsCarry
  | clearsCarries
  | setsAll
  deriving DecidableEq

/-- The row of an instruction. -/
def Instr.flagRule : Instr → FlagRule
  | .mov _ _ | .mvi _ _ | .hlt => .keepsAll
  | .inr _ | .dcr _ => .keepsCarry
  | .ana _ | .xra _ | .ora _ | .ani _ | .xri _ | .ori _ => .clearsCarries
  | .add _ | .adc _ | .sub _ | .sbb _ | .cmp _ | .adi _ | .aci _ | .sui _ | .sbi _ | .cpi _ => .setsAll

/-- What a row says of the flags before and after. -/
def FlagRule.Relates (f g : Flags) : FlagRule → Prop
  | .keepsAll => g = f
  | .keepsCarry => g.carry = f.carry
  | .clearsCarries => g.carry = false ∧ g.auxiliaryCarry = false
  | .setsAll => True

/-- The row of an opcode byte does not depend on the byte after it. -/
theorem decodeOp_flagRule_imm (op imm : Byte) :
    (decodeOp op imm).map Instr.flagRule = (decodeOp op 0).map Instr.flagRule := by
  have himm : ∀ f, (aluImmInstr f imm).flagRule = (aluImmInstr f 0).flagRule := by
    intro f; unfold aluImmInstr; split <;> rfl
  unfold decodeOp
  split_ifs
  · rfl
  · rfl
  · rfl
  · rfl
  · rfl
  · rfl
  · exact congrArg some (himm _)
  · rfl

/-- The bytes of the transfers and `HLT` are of the row that keeps every flag. -/
theorem flagRule_of_transfer {op : Byte} (h : op.toNat / 64 = 1 ∨ op &&& 0xC7 = 0x06) :
    (decodeOp op 0).map Instr.flagRule = some .keepsAll := by
  revert op
  decide +kernel

/-- The bytes of `INR` and `DCR` are of the row that keeps carry. -/
theorem flagRule_of_inr_dcr {op : Byte} (h : op &&& 0xC6 = 0x04) :
    (decodeOp op 0).map Instr.flagRule = some .keepsCarry := by
  revert op
  decide +kernel

/-- The bytes of the logical instructions are of the row that clears the two carries. -/
theorem flagRule_of_logical {op : Byte}
    (h : 0xA0 ≤ op.toNat ∧ op.toNat < 0xB8 ∨ op ∈ [0xE6, 0xEE, 0xF6]) :
    (decodeOp op 0).map Instr.flagRule = some .clearsCarries := by
  revert op
  decide +kernel

namespace Machine

/-- Every handler with an encoding keeps to the row of its instruction. -/
theorem exec_relates_flags {i : Instr} {s t : State} (hwf : i.wellFormed = true) (h : exec i s = .next t) :
    i.flagRule.Relates s.flags t.flags := by
  cases i with
  | mov dst src => rw [exec_mov s hwf] at h; cases h; exact writeOperand_flags ..
  | mvi dst imm => cases h; exact writeOperand_flags ..
  | inr dst => cases h; exact incFlags_carry ..
  | dcr dst => cases h; exact decFlags_carry ..
  | ana src => cases h; exact ⟨rfl, rfl⟩
  | xra src => cases h; exact ⟨rfl, rfl⟩
  | ora src => cases h; exact ⟨rfl, rfl⟩
  | ani imm => cases h; exact ⟨rfl, rfl⟩
  | xri imm => cases h; exact ⟨rfl, rfl⟩
  | ori imm => cases h; exact ⟨rfl, rfl⟩
  | hlt => cases h; rfl
  | add | adc | sub | sbb | cmp | adi | aci | sui | sbi | cpi => trivial

/-- Every step on a defined byte keeps to the row of that byte. -/
theorem step_relates_flags {s t : State} (h : step s = .next t) {rule : FlagRule}
    (hrule : (decodeOp (s.memRead s.pc) 0).map Instr.flagRule = some rule) : rule.Relates s.flags t.flags := by
  obtain ⟨-, ⟨hu, -⟩ | ⟨i, imm, hi, hwf, -, hexec⟩⟩ := step_cases h
  · rw [(decodeOp_eq_none _ 0).mpr hu] at hrule
    cases hrule
  · rw [← decodeOp_flagRule_imm _ imm, hi] at hrule
    cases hrule
    have hrel := exec_relates_flags hwf hexec
    rwa [setPc_flags] at hrel

end Machine

/-- Settles O47: an undefined byte raises a fatal condition, which leaves the flags; the other bytes named are each of
one row of the flag table. -/
theorem flagsLeftAlone : Obligations.FlagsLeftAlone := by
  intro s t h
  refine ⟨?transfer, fun hop => step_relates_flags h (flagRule_of_inr_dcr hop),
    fun hop => step_relates_flags h (flagRule_of_logical hop)⟩
  rintro (hmov | hmvi | hu)
  · exact step_relates_flags h (flagRule_of_transfer (.inl hmov))
  · exact step_relates_flags h (flagRule_of_transfer (.inr hmvi))
  · obtain ⟨hrun, -⟩ := step_cases h
    rw [step_running hrun, dispatch_undefined hu] at h
    cases h
    rfl

end Sys2Proof

namespace Sys2Proof.Machine

open Claims

/-- Agreement up to the four flags no instruction reads is replacing the flags and keeping carry. -/
theorem agreeButUnreadFlags_iff {s s' : State} :
    AgreeButUnreadFlags s s' ↔ ∃ f : Flags, f.carry = s.flags.carry ∧ s' = s.setFlags f := by
  constructor
  · rintro ⟨hreg, hpc, hsp, hcarry, hmem, hstatus⟩
    exact ⟨s'.flags, hcarry.symm, state_ext (regs_ext hreg).symm hpc.symm hsp.symm rfl hmem.symm hstatus.symm⟩
  · rintro ⟨f, hcarry, rfl⟩
    exact ⟨fun q => (setFlags_readReg s q f).symm, rfl, rfl, hcarry.symm, rfl, rfl⟩

theorem agreeButUnreadFlags_refl (s : State) : AgreeButUnreadFlags s s :=
  agreeButUnreadFlags_iff.mpr ⟨s.flags, rfl, rfl⟩

section SetFlags
variable (s : State) (f : Flags)

@[simp] theorem readOperand_setFlags (o : Operand) : (s.setFlags f).readOperand o = s.readOperand o :=
  readOperand_congr rfl rfl o

/-- The shared ALU operations replace the flags, so flags set before them leave no trace. -/
theorem addToA_setFlags (b : Byte) (c : Bool) : (s.setFlags f).addToA b c = s.addToA b c := rfl
theorem subFromA_setFlags (b : Byte) (c : Bool) : (s.setFlags f).subFromA b c = s.subFromA b c := rfl
theorem compareWithA_setFlags (b : Byte) : (s.setFlags f).compareWithA b = s.compareWithA b := rfl
theorem logicToA_setFlags (b : Byte) : (s.setFlags f).logicToA b = s.logicToA b := rfl

theorem writeOperand_setFlags (o : Operand) (v : Byte) :
    (s.setFlags f).writeOperand o v = (s.writeOperand o v).setFlags f := by
  cases o with
  | reg r => cases r <;> rfl
  | mem => rfl

/-- An update in place that reads no flag but carry does not see the other four. -/
theorem updateInPlace_setFlags (o : Operand) {g : Byte → Flags → Byte × Flags} (hg : ∀ v, g v f = g v s.flags) :
    (s.setFlags f).updateInPlace o g = s.updateInPlace o g := by
  rw [updateInPlace_eq, updateInPlace_eq, readOperand_setFlags, setFlags_flags, hg, writeOperand_setFlags]
  rfl

/-- With the flags replaced and carry kept, a handler answers the same state, or, where it leaves the flags, the same
state with the flags replaced. -/
theorem exec_setFlags {i : Instr} (hwf : i.wellFormed = true) {f : Flags} (hcarry : f.carry = s.flags.carry) :
    ∃ t, exec i s = .next t ∧ (exec i (s.setFlags f) = .next t ∨
      t.flags = s.flags ∧ exec i (s.setFlags f) = .next (t.setFlags f)) := by
  cases i with
  | mov dst src =>
    exact ⟨_, exec_mov s hwf, .inr ⟨writeOperand_flags .., by
      rw [exec_mov _ hwf, readOperand_setFlags, writeOperand_setFlags]⟩⟩
  | mvi dst imm =>
    exact ⟨_, exec_mvi dst imm s, .inr ⟨writeOperand_flags .., by rw [exec_mvi, writeOperand_setFlags]⟩⟩
  | hlt => exact ⟨_, exec_hlt s, .inr ⟨rfl, rfl⟩⟩
  | inr dst =>
    exact ⟨_, exec_inr dst s, .inl (by
      rw [exec_inr, updateInPlace_setFlags s f dst fun v => incFlags_congr v hcarry])⟩
  | dcr dst =>
    exact ⟨_, exec_dcr dst s, .inl (by
      rw [exec_dcr, updateInPlace_setFlags s f dst fun v => decFlags_congr v hcarry])⟩
  | add src => exact ⟨_, exec_add src s, .inl (by rw [exec_add, readOperand_setFlags, addToA_setFlags])⟩
  | adc src =>
    exact ⟨_, exec_adc src s, .inl (by
      rw [exec_adc, readOperand_setFlags, setFlags_flags, hcarry, addToA_setFlags])⟩
  | sub src => exact ⟨_, exec_sub src s, .inl (by rw [exec_sub, readOperand_setFlags, subFromA_setFlags])⟩
  | sbb src =>
    exact ⟨_, exec_sbb src s, .inl (by
      rw [exec_sbb, readOperand_setFlags, setFlags_flags, hcarry, subFromA_setFlags])⟩
  | ana src =>
    exact ⟨_, exec_ana src s, .inl (by
      rw [exec_ana, readOperand_setFlags, setFlags_readReg, logicToA_setFlags])⟩
  | xra src =>
    exact ⟨_, exec_xra src s, .inl (by
      rw [exec_xra, readOperand_setFlags, setFlags_readReg, logicToA_setFlags])⟩
  | ora src =>
    exact ⟨_, exec_ora src s, .inl (by
      rw [exec_ora, readOperand_setFlags, setFlags_readReg, logicToA_setFlags])⟩
  | cmp src => exact ⟨_, exec_cmp src s, .inl (by rw [exec_cmp, readOperand_setFlags, compareWithA_setFlags])⟩
  | adi imm => exact ⟨_, exec_adi imm s, .inl (by rw [exec_adi, addToA_setFlags])⟩
  | aci imm => exact ⟨_, exec_aci imm s, .inl (by rw [exec_aci, setFlags_flags, hcarry, addToA_setFlags])⟩
  | sui imm => exact ⟨_, exec_sui imm s, .inl (by rw [exec_sui, subFromA_setFlags])⟩
  | sbi imm => exact ⟨_, exec_sbi imm s, .inl (by rw [exec_sbi, setFlags_flags, hcarry, subFromA_setFlags])⟩
  | ani imm => exact ⟨_, exec_ani imm s, .inl (by rw [exec_ani, setFlags_readReg, logicToA_setFlags])⟩
  | xri imm => exact ⟨_, exec_xri imm s, .inl (by rw [exec_xri, setFlags_readReg, logicToA_setFlags])⟩
  | ori imm => exact ⟨_, exec_ori imm s, .inl (by rw [exec_ori, setFlags_readReg, logicToA_setFlags])⟩
  | cpi imm => exact ⟨_, exec_cpi imm s, .inl (by rw [exec_cpi, compareWithA_setFlags])⟩

end SetFlags

/-- Dispatch of one byte in two states that agree up to the unread flags. -/
theorem dispatch_agree (op : Byte) (s : State) {f : Flags} (hcarry : f.carry = s.flags.carry) :
    ∃ t t', dispatch op s = .next t ∧ dispatch op (s.setFlags f) = .next t' ∧ AgreeButUnreadFlags t t' := by
  rcases dispatch_cases op s with ⟨hu, hd⟩ | ⟨i, hi, hwf, hd⟩
  · exact ⟨_, _, hd, dispatch_undefined hu _, agreeButUnreadFlags_iff.mpr ⟨f, hcarry, rfl⟩⟩
  · have hrest : (s.setFlags f).fetchRest op = ((s.fetchRest op).1, (s.fetchRest op).2.setFlags f) := by
      unfold State.fetchRest
      split <;> rfl
    have hd' : dispatch op (s.setFlags f) = exec i ((s.fetchRest op).2.setFlags f) := by
      rw [dispatch_defined (by rwa [hrest]), hrest]
    have hflags : (s.fetchRest op).2.flags = s.flags := by rw [fetchRest_state, setPc_flags]
    rw [hd, hd']
    obtain ⟨t, ht, ht' | ⟨hkeep, ht'⟩⟩ := exec_setFlags (s.fetchRest op).2 hwf (hcarry.trans (by rw [hflags]))
    · exact ⟨t, t, ht, ht', agreeButUnreadFlags_refl t⟩
    · exact ⟨t, t.setFlags f, ht, ht',
        agreeButUnreadFlags_iff.mpr ⟨f, by rw [hkeep, hflags, hcarry], rfl⟩⟩

end Sys2Proof.Machine

namespace Sys2Proof

open Machine

/-- Settles O44: the two states fetch the same bytes, and each handler either replaces all the flags by ones that
depend on carry alone or leaves them. -/
theorem onlyCarryIsEverRead : Obligations.OnlyCarryIsEverRead := by
  intro s s' hagree hrun
  obtain ⟨f, hcarry, rfl⟩ := agreeButUnreadFlags_iff.mp hagree
  have hrun' : (s.setFlags f).status = .running := hrun
  rw [step_running hrun, step_running hrun']
  exact dispatch_agree (s.memRead s.pc) (s.setPc (s.pc + 1)) hcarry

end Sys2Proof

/-! PROOFS. The statements about `MOV`, `MVI M`, the additions and subtractions, the logical immediates, the comparisons
and `HLT` (`41_data_transfer.md`, `43_arithmetic.md`, `44_logical_compare.md`, `45_system_and_control.md`): each form's
bytes are its encoding, and its handler is one shared operation, whose result and frame are stated once here. -/

namespace Sys2Proof.Machine

open Claims

/-- The opcode of `MOV r,M`, as `41_data_transfer.md` writes it. -/
theorem encode_mov_reg_mem (r : Reg) : encode (.mov (.reg r) .mem) = [BitVec.ofNat 8 (0x46 + 8 * r.id)] := by
  cases r <;> rfl

/-- The opcode of `MOV r,r`, as `30_encoding.md` section 5 writes it. -/
theorem encode_mov_self (r : Reg) : encode (.mov (.reg r) (.reg r)) = [BitVec.ofNat 8 (0x40 + 9 * r.id)] := by
  cases r <;> rfl

section Accumulator
variable (s : State) (b : Byte) (c : Bool)

/-- Setting the flags is outside the frame, so the frame is that of the write to A. -/
theorem addToA_keepsAllBut : KeepsAllBut [.a] s (s.addToA b c) := writeReg_keepsAllBut s .a _

theorem subFromA_keepsAllBut : KeepsAllBut [.a] s (s.subFromA b c) := writeReg_keepsAllBut s .a _

theorem addToA_readReg_a : (s.addToA b c).readReg .a = (addFlags (s.readReg .a) b c).1 := by
  rw [addToA_readReg, if_pos rfl]

theorem subFromA_readReg_a : (s.subFromA b c).readReg .a = (subFlags (s.readReg .a) b c).1 := by
  rw [subFromA_readReg, if_pos rfl]

theorem logicToA_readReg_a : (s.logicToA b).readReg .a = b := by
  rw [logicToA_readReg, if_pos rfl]

theorem compareWithA_readReg (q : Reg) : (s.compareWithA b).readReg q = s.readReg q := readReg_congr rfl q

/-- The shared addition meets `43_arithmetic.md` R100 and R103. -/
theorem addedToA_addToA : AddedToA s b c (s.addToA b c) := by
  refine ⟨?_, addToA_keepsAllBut s b c⟩
  rw [addToA_readReg_a]
  exact isSum_addFlags _ b c

/-- The shared subtraction meets `43_arithmetic.md` R106 and R109. -/
theorem subtractedFromA_subFromA : SubtractedFromA s b c (s.subFromA b c) := by
  refine ⟨?_, subFromA_keepsAllBut s b c⟩
  rw [subFromA_readReg_a]
  exact isDifference_subFlags _ b c

/-- A difference without a borrow is zero exactly between equal bytes. -/
theorem subFlags_zero_iff (a : Byte) : (subFlags a b false).2.zero = true ↔ a = b := by
  have hresult : (subFlags a b false).1 = a - b := by rw [subFlags_result]; exact BitVec.sub_zero _
  rw [subFlags_flags, setZSP_zero, beq_iff_eq, hresult]
  exact sub_eq_zero

/-- The shared comparison meets `44_logical_compare.md` R121. -/
theorem comparedWithA_compareWithA : ComparedWithA s b (s.compareWithA b) :=
  ⟨⟨_, isDifference_subFlags (s.readReg .a) b false⟩, subFlags_zero_iff b (s.readReg .a),
    fun q _ => compareWithA_readReg s b q, rfl, rfl, rfl, fun _ => rfl⟩

end Accumulator

end Sys2Proof.Machine

namespace Sys2Proof

open Machine Claims

/-- Settles O19: the encoding of `MOV r1,r2` runs it, and it is one register write. -/
theorem movRegisterToRegister : Obligations.MovRegisterToRegister := fun r1 r2 s =>
  ⟨runsAs_encode rfl (Laws.OpcodeRoundTrip.mov (.reg r1) (.reg r2)) s, _, exec_mov s rfl,
    readReg_writeReg_same s r1 _, writeReg_flags s r1 _, writeReg_keepsAllBut s r1 _⟩

/-- Settles O20: the encoding of `MOV r,M` runs it, and it is one register write of the byte at the old HL. -/
theorem movMemoryToRegister : Obligations.MovMemoryToRegister := by
  intro r s
  rw [← encode_mov_reg_mem]
  exact ⟨runsAs_encode rfl (Laws.OpcodeRoundTrip.mov (.reg r) .mem) s, _, exec_mov s rfl,
    readReg_writeReg_same s r _, writeReg_flags s r _, writeReg_keepsAllBut s r _⟩

/-- Settles O21: the encoding of `MOV M,r` runs it, and it is one byte write at HL. -/
theorem movRegisterToMemory : Obligations.MovRegisterToMemory := fun r s =>
  ⟨runsAs_encode rfl (Laws.OpcodeRoundTrip.mov .mem (.reg r)) s, _, exec_mov s rfl,
    memRead_memWrite_same s _ _, rfl, memWrite_keepsAllButByte s _ _⟩

/-- Settles O23: the encoding of `MVI M,v` runs it, and it is one byte write at HL. -/
theorem mviToMemory : Obligations.MviToMemory := fun v s =>
  ⟨runsAs_encode rfl (Laws.OpcodeRoundTrip.mvi .mem v) s, _, exec_mvi .mem v s,
    memRead_memWrite_same s _ v, rfl, memWrite_keepsAllButByte s _ v⟩

/-- Settles O28: each byte is the encoding of its form of `ADD`, the shared addition without carry. -/
theorem addToAccumulator : Obligations.AddToAccumulator := fun s =>
  ⟨fun r => ⟨runsAs_encode rfl (Laws.OpcodeRoundTrip.add (.reg r)) s, _, exec_add (.reg r) s,
      addedToA_addToA s _ false⟩,
    runsAs_encode rfl (Laws.OpcodeRoundTrip.add .mem) s, _, exec_add .mem s, addedToA_addToA s _ false⟩

/-- Settles O29: each byte is the encoding of its form of `ADC`, the shared addition with the old carry. -/
theorem addWithCarryToAccumulator : Obligations.AddWithCarryToAccumulator := fun s =>
  ⟨fun r => ⟨runsAs_encode rfl (Laws.OpcodeRoundTrip.adc (.reg r)) s, _, exec_adc (.reg r) s,
      addedToA_addToA s _ s.flags.carry⟩,
    runsAs_encode rfl (Laws.OpcodeRoundTrip.adc .mem) s, _, exec_adc .mem s, addedToA_addToA s _ s.flags.carry⟩

/-- Settles O30: each byte is the encoding of its form of `SUB`, the shared subtraction without borrow. -/
theorem subtractFromAccumulator : Obligations.SubtractFromAccumulator := fun s =>
  ⟨fun r => ⟨runsAs_encode rfl (Laws.OpcodeRoundTrip.sub (.reg r)) s, _, exec_sub (.reg r) s,
      subtractedFromA_subFromA s _ false⟩,
    runsAs_encode rfl (Laws.OpcodeRoundTrip.sub .mem) s, _, exec_sub .mem s, subtractedFromA_subFromA s _ false⟩

/-- Settles O31: each byte is the encoding of its form of `SBB`, the shared subtraction with the old carry. -/
theorem subtractWithBorrowFromAccumulator : Obligations.SubtractWithBorrowFromAccumulator := fun s =>
  ⟨fun r => ⟨runsAs_encode rfl (Laws.OpcodeRoundTrip.sbb (.reg r)) s, _, exec_sbb (.reg r) s,
      subtractedFromA_subFromA s _ s.flags.carry⟩,
    runsAs_encode rfl (Laws.OpcodeRoundTrip.sbb .mem) s, _, exec_sbb .mem s,
    subtractedFromA_subFromA s _ s.flags.carry⟩

/-- Settles O32: the two bytes are the encodings of `ADI v` and `ACI v`, the shared addition of the immediate. -/
theorem addImmediates : Obligations.AddImmediates := fun v s =>
  ⟨⟨runsAs_encode rfl (Laws.OpcodeRoundTrip.adi v) s, _, exec_adi v s, addedToA_addToA s v false⟩,
    runsAs_encode rfl (Laws.OpcodeRoundTrip.aci v) s, _, exec_aci v s, addedToA_addToA s v s.flags.carry⟩

/-- Settles O33: the two bytes are the encodings of `SUI v` and `SBI v`, the shared subtraction of the immediate. -/
theorem subtractImmediates : Obligations.SubtractImmediates := fun v s =>
  ⟨⟨runsAs_encode rfl (Laws.OpcodeRoundTrip.sui v) s, _, exec_sui v s, subtractedFromA_subFromA s v false⟩,
    runsAs_encode rfl (Laws.OpcodeRoundTrip.sbi v) s, _, exec_sbi v s, subtractedFromA_subFromA s v s.flags.carry⟩

/-- Settles O37: the two bytes are the encodings of `ANI v`, `XRI v` and `ORI v`, the shared logical update. -/
theorem logicalImmediates : Obligations.LogicalImmediates := fun v s =>
  ⟨⟨runsAs_encode rfl (Laws.OpcodeRoundTrip.ani v) s, _, exec_ani v s, logicalIntoA_logicToA s _⟩,
    ⟨runsAs_encode rfl (Laws.OpcodeRoundTrip.xri v) s, _, exec_xri v s, logicalIntoA_logicToA s _⟩,
    runsAs_encode rfl (Laws.OpcodeRoundTrip.ori v) s, _, exec_ori v s, logicalIntoA_logicToA s _⟩

/-- Settles O38: each byte is the encoding of its form of `CMP`, the shared comparison. -/
theorem compareWithAccumulator : Obligations.CompareWithAccumulator := fun s =>
  ⟨fun r => ⟨runsAs_encode rfl (Laws.OpcodeRoundTrip.cmp (.reg r)) s, _, exec_cmp (.reg r) s,
      comparedWithA_compareWithA s _⟩,
    runsAs_encode rfl (Laws.OpcodeRoundTrip.cmp .mem) s, _, exec_cmp .mem s, comparedWithA_compareWithA s _⟩

/-- Settles O39: the two bytes are the encoding of `CPI v`, the shared comparison with the immediate. -/
theorem compareImmediate : Obligations.CompareImmediate := fun v s =>
  ⟨runsAs_encode rfl (Laws.OpcodeRoundTrip.cpi v) s, _, exec_cpi v s, comparedWithA_compareWithA s v⟩

/-- Settles O40: 0x76 is the encoding of `HLT`, which replaces the status alone. -/
theorem haltEndsTheRun : Obligations.HaltEndsTheRun := fun s =>
  ⟨runsAs_encode rfl Laws.OpcodeRoundTrip.hlt s, _, exec_hlt s, rfl, rfl, rfl, rfl, fun _ => rfl, fun _ => rfl⟩

/-- Settles O49: `MOV r,r` writes a register with the value it holds, and its byte is its encoding. -/
theorem selfMoveChangesOnlyPc : Obligations.SelfMoveChangesOnlyPc := by
  have hexec : ∀ (r : Reg) (s : State), exec (.mov (.reg r) (.reg r)) s = .next s := fun r s =>
    (exec_mov s rfl).trans (congrArg _ (writeReg_readReg s r))
  refine fun r s => ⟨hexec r s, fun hfetch => ?_⟩
  rw [← encode_mov_self] at hfetch
  exact (runsAs_encode rfl (Laws.OpcodeRoundTrip.mov (.reg r) (.reg r)) s hfetch).trans (hexec r _)

end Sys2Proof

/-! PROOFS. The statements about pairs of operations and corner operands: addition undone by subtraction
(`95_test_vectors.md` S3), the operand 0xFF with carry (`43_arithmetic.md`), and A as both operands
(`95_test_vectors.md` S6). -/

namespace Sys2Proof.Machine

open Claims

section Units
variable (a b : Byte)

/-- Subtracting what was added gives the byte back. -/
theorem subFlags_addFlags_result : (subFlags (addFlags a b false).1 b false).1 = a := by
  simp [addFlags_result, subFlags_result]

/-- The byte 0xFF with a carry is 256: adding it leaves the byte and carries out of both nibbles. -/
theorem addFlags_ones_carry : (addFlags a 0xFF true).1 = a ∧ (addFlags a 0xFF true).2.carry = true ∧
    (addFlags a 0xFF true).2.auxiliaryCarry = true := by
  obtain ⟨hresult, -, hcarry, haux⟩ := isSum_addFlags a 0xFF true
  have hones : (0xFF : Byte).toNat = 255 := rfl
  rw [hones, Bool.toNat_true] at hresult hcarry haux
  exact ⟨BitVec.eq_of_toNat_eq (by omega), hcarry.mpr (by omega), haux.mpr (by omega)⟩

/-- The byte 0xFF with a borrow is 256: subtracting it leaves the byte and borrows into both nibbles. -/
theorem subFlags_ones_borrow : (subFlags a 0xFF true).1 = a ∧ (subFlags a 0xFF true).2.carry = true ∧
    (subFlags a 0xFF true).2.auxiliaryCarry = true := by
  obtain ⟨hresult, -, hborrow, haux⟩ := isDifference_subFlags a 0xFF true
  have hones : (0xFF : Byte).toNat = 255 := rfl
  rw [hones, Bool.toNat_true] at hresult hborrow haux
  exact ⟨BitVec.eq_of_toNat_eq (by omega), hborrow.mpr (by omega), haux.mpr (by omega)⟩

theorem setZSP_zero_byte (f : Flags) : setZSP 0 f = ⟨true, false, true, f.carry, f.auxiliaryCarry⟩ := rfl
theorem setZSP_ones (f : Flags) : setZSP 0xFF f = ⟨false, true, true, f.carry, f.auxiliaryCarry⟩ := rfl

/-- A byte minus itself is 0, with no borrow. -/
theorem subFlags_self : subFlags a a false = (0, ⟨true, false, true, false, false⟩) := by
  have hresult : (subFlags a a false).1 = 0 := by simp [subFlags_result]
  refine Prod.ext hresult ?_
  rw [subFlags_flags, hresult, setZSP_zero_byte]
  simp

/-- A byte minus itself and a borrow is 0xFF, borrowing into both nibbles. -/
theorem subFlags_self_borrow : subFlags a a true = (0xFF, ⟨false, true, true, true, true⟩) := by
  have hresult : (subFlags a a true).1 = 0xFF := by simp [subFlags_result]
  refine Prod.ext hresult ?_
  rw [subFlags_flags, hresult, setZSP_ones]
  simp

end Units

theorem addToA_ones_carry {s : State} (hcarry : s.flags.carry = true) {b : Byte} (hb : b = 0xFF) :
    (s.addToA b s.flags.carry).readReg .a = s.readReg .a ∧ (s.addToA b s.flags.carry).flags.carry = true ∧
      (s.addToA b s.flags.carry).flags.auxiliaryCarry = true := by
  rw [addToA_readReg_a, addToA_flags, hcarry, hb]
  exact addFlags_ones_carry _

theorem subFromA_ones_borrow {s : State} (hcarry : s.flags.carry = true) {b : Byte} (hb : b = 0xFF) :
    (s.subFromA b s.flags.carry).readReg .a = s.readReg .a ∧ (s.subFromA b s.flags.carry).flags.carry = true ∧
      (s.subFromA b s.flags.carry).flags.auxiliaryCarry = true := by
  rw [subFromA_readReg_a, subFromA_flags, hcarry, hb]
  exact subFlags_ones_borrow _

/-- An addition to A leaves every operand but A. -/
theorem addToA_readOperand (s : State) (b : Byte) (c : Bool) {o : Operand} (h : o ≠ .reg .a) :
    (s.addToA b c).readOperand o = s.readOperand o := by
  cases o with
  | reg r => rw [readOperand_reg, readOperand_reg, addToA_readReg, if_neg fun hr => h (congrArg _ hr)]
  | mem => rfl

/-- Adding a byte to A and subtracting it restores A, with the flags of the subtraction. -/
theorem restored_subFromA_addToA (s : State) (x : Byte) :
    Restored s x (s.addToA x false) ((s.addToA x false).subFromA x false) := by
  refine ⟨?_, (subtractedFromA_subFromA _ x false).1⟩
  rw [subFromA_readReg_a, addToA_readReg_a, subFlags_addFlags_result]

/-- `ADD` then `SUB` of an operand that the addition leaves. -/
theorem exec_add_sub_restores (s : State) {o : Operand} (h : o ≠ .reg .a) :
    ∃ t u, exec (.add o) s = .next t ∧ exec (.sub o) t = .next u ∧ Restored s (s.readOperand o) t u :=
  ⟨_, _, exec_add o s, by rw [exec_sub, addToA_readOperand s _ _ h], restored_subFromA_addToA s _⟩

end Sys2Proof.Machine

namespace Sys2Proof

open Machine Claims

/-- Settles O41: an operand other than A is the same byte in both instructions. Where the operand is A, the subtraction
is of the sum from itself. -/
theorem addThenSubtractRestores : Obligations.AddThenSubtractRestores := by
  refine ⟨fun s r hr => exec_add_sub_restores s fun h => hr (Operand.reg.inj h),
    fun s => exec_add_sub_restores s Operand.noConfusion,
    fun s x => ⟨_, _, exec_adi x s, exec_sui x _, restored_subFromA_addToA s x⟩,
    fun s => ⟨_, _, exec_add (.reg .a) s, exec_sub (.reg .a) _, ?result, ?flags⟩⟩
  case result => rw [subFromA_readReg_a, readOperand_reg, readOperand_reg, subFlags_self]
  case flags =>
    have hdiff := (subtractedFromA_subFromA (s.addToA (s.readReg .a) false)
      ((s.addToA (s.readReg .a) false).readReg .a) false).1
    rwa [subFromA_readReg_a, subFlags_self] at hdiff

/-- Settles O42: with carry set, all four instructions are a unit at 0xFF and carry 1. -/
theorem carryInIsNeverLost : Obligations.CarryInIsNeverLost := by
  intro s hcarry
  simp only [List.forall_mem_cons, List.not_mem_nil, false_implies, implies_true, and_true]
  exact ⟨⟨⟨_, exec_aci 0xFF s, addToA_ones_carry hcarry rfl⟩, _, exec_sbi 0xFF s, subFromA_ones_borrow hcarry rfl⟩,
    fun r hr => ⟨⟨_, exec_adc (.reg r) s, addToA_ones_carry hcarry hr⟩,
      _, exec_sbb (.reg r) s, subFromA_ones_borrow hcarry hr⟩⟩

/-- Settles O43: the subtraction unit at equal bytes, and the bitwise laws of a byte with itself. -/
theorem accumulatorWithItself : Obligations.AccumulatorWithItself := by
  intro s
  simp only [List.forall_mem_cons, List.not_mem_nil, false_implies, implies_true, and_true]
  refine ⟨⟨_, exec_cmp (.reg .a) s, compareWithA_readReg s _ .a, ?cmp⟩,
    ⟨⟨_, exec_sub (.reg .a) s, ?sub⟩, _, exec_xra (.reg .a) s, ?xra⟩,
    ⟨⟨_, exec_ana (.reg .a) s, ?ana, rfl, rfl⟩, _, exec_ora (.reg .a) s, ?ora, rfl, rfl⟩,
    _, exec_sbb (.reg .a) s, fun hcarry => ?sbb, fun hcarry => ?sbbCarry⟩
  case cmp => rw [compareWithA_flags, readOperand_reg, subFlags_self]
  case sub => rw [subFromA_readReg_a, subFromA_flags, readOperand_reg, subFlags_self]; exact ⟨rfl, rfl⟩
  case xra => rw [logicToA_readReg_a, logicToA_flags, readOperand_reg, BitVec.xor_self]; exact ⟨rfl, rfl⟩
  case ana => rw [logicToA_readReg_a, readOperand_reg, BitVec.and_self]
  case ora => rw [logicToA_readReg_a, readOperand_reg, BitVec.or_self]
  case sbb => rw [subFromA_readReg_a, subFromA_flags, readOperand_reg, hcarry, subFlags_self]; exact ⟨rfl, rfl⟩
  case sbbCarry =>
    rw [subFromA_readReg_a, subFromA_flags, readOperand_reg, hcarry, subFlags_self_borrow]; exact ⟨rfl, rfl⟩

end Sys2Proof

/-! PROOFS. The statements about reset (`10_state.md` section 10), the destination field of an operand
(`40_operands_and_flags.md` R72), the fetch after a store (`20_memory.md` section 7) and the image load
(`70_reset_and_hazards.md` section 1). -/

namespace Sys2Proof.Machine

open Claims

/-- A one-byte fetch is the byte at `pc` of a running machine. -/
theorem fetches_one {s : State} (hrun : s.status = .running) {op : Byte} (h : s.memRead s.pc = op) :
    Fetches s [op] := ⟨hrun, congrArg (· :: []) h⟩

/-- A two-byte fetch is the byte at `pc` of a running machine and the byte after it. -/
theorem fetches_two {s : State} (hrun : s.status = .running) {op : Byte} (h : s.memRead s.pc = op) :
    Fetches s [op, s.memRead (s.pc + 1)] := ⟨hrun, congrArg (· :: _) h⟩

/-- What HL holds is what a fetch at HL gives: the fetches read memory as it is. -/
theorem storedAndFetched_of_memRead {s t : State} {v : Byte} (h : t.memRead (s.readPair .hl) = v) :
    StoredAndFetched s v t :=
  ⟨h, fun hpc => (congrArg t.memRead hpc).symm.trans h, fun hpc => (congrArg t.memRead hpc).symm.trans h⟩

section CopyBytes
variable {m : Memory} {vs : List Byte} {a : Nat}

/-- Copying an image leaves every byte outside it. -/
theorem read_copyBytes_outside (hfit : a + vs.length ≤ 65536) {x : Word}
    (hx : x.toNat < a ∨ a + vs.length ≤ x.toNat) :
    (copyBytes m (BitVec.ofNat 16 a) vs).read x = m.read x := by
  induction vs generalizing m a with
  | nil => rfl
  | cons v vs ih =>
    rw [List.length_cons] at hfit hx
    have hne : x ≠ BitVec.ofNat 16 a := by
      rintro rfl
      rw [BitVec.toNat_ofNat, Nat.mod_eq_of_lt (by omega)] at hx
      omega
    have hnext : BitVec.ofNat 16 a + 1 = BitVec.ofNat 16 (a + 1) := (BitVec.ofNat_add a 1).symm
    rw [copyBytes, hnext, ih (by omega) (by omega), read_write, if_neg hne]

/-- Copying an image puts its byte `k` at the address `k` past the first. -/
theorem read_copyBytes_inside (hfit : a + vs.length ≤ 65536) {k : Nat} (hk : k < vs.length) {x : Word}
    (hx : x.toNat = a + k) : (copyBytes m (BitVec.ofNat 16 a) vs).read x = vs[k] := by
  induction vs generalizing m a k with
  | nil => cases hk
  | cons v vs ih =>
    rw [List.length_cons] at hfit
    have hnext : BitVec.ofNat 16 a + 1 = BitVec.ofNat 16 (a + 1) := (BitVec.ofNat_add a 1).symm
    rw [copyBytes, hnext]
    cases k with
    | zero =>
      have hxa : x = BitVec.ofNat 16 a := by rw [← Nat.add_zero a, ← hx, BitVec.ofNat_toNat, BitVec.setWidth_eq]
      rw [read_copyBytes_outside (by omega) (.inl (by omega)), read_write, if_pos hxa]
      rfl
    | succ k => exact ih (by omega) (Nat.lt_of_succ_lt_succ hk) (by omega)

end CopyBytes

/-- The loaded form of an image, by its last byte (`70_reset_and_hazards.md` R151). -/
theorem padImage_eq {image form : List Byte}
    (h : image.getLast? = some 0x76 ∧ form = image ∨ image.getLast? ≠ some 0x76 ∧ form = image ++ [0x76]) :
    padImage image = form := by
  rcases h with ⟨hlast, rfl⟩ | ⟨hlast, rfl⟩
  · exact if_pos hlast
  · exact if_neg hlast

end Sys2Proof.Machine

namespace Sys2Proof

open Machine Claims

/-- Settles O1: every field of the reset state, and its memory lists no cell. -/
theorem resetState : Obligations.ResetState :=
  ⟨fun q => by cases q <;> rfl, rfl, rfl, rfl, fun _ => rfl, rfl⟩

/-- Settles O2: reset memory is in canonical form and the reset status is running. -/
theorem resetMeetsInvariant : Obligations.ResetMeetsInvariant := ⟨reset_wf, trivial⟩

/-- Settles O8: the field write is the handlers' operand write, and the operand of a field is memory at HL for 6 and the
register for a register's id. -/
theorem destinationFieldResolution : Obligations.DestinationFieldResolution := by
  intro s f v
  refine ⟨?memory, ?register, writeField_eq s f v⟩
  case memory =>
    rintro rfl
    exact writeField_eq s 6 v
  case register =>
    intro r hr
    rw [writeField_eq, ofField_eq_reg hr, writeOperand_reg]

/-- Settles O48: the bytes fetched decide the step before its store, which goes to HL wherever HL points; the next
fetches read memory with the store in it. -/
theorem storeSeenByTheNextFetch : Obligations.StoreSeenByTheNextFetch := by
  intro s hrun
  refine ⟨fun r hop => ?mov, fun hop => ?mvi, fun hop => ?inr, fun hop => ?dcr⟩
  case mov =>
    obtain ⟨t, hexec, hstored, -, -, hpc, -⟩ := (movRegisterToMemory r (s.setPc (s.pc + 1))).2
    exact ⟨t, ((movRegisterToMemory r s).1 (fetches_one hrun hop)).trans hexec, hpc,
      storedAndFetched_of_memRead hstored⟩
  case mvi =>
    obtain ⟨t, hexec, hstored, -, -, hpc, -⟩ := (mviToMemory (s.memRead (s.pc + 1)) (s.setPc (s.pc + 2))).2
    exact ⟨t, ((mviToMemory _ s).1 (fetches_two hrun hop)).trans hexec, hpc, storedAndFetched_of_memRead hstored⟩
  case inr =>
    refine ⟨_, ((inrMemory s).1 (fetches_one hrun hop)).trans (exec_inr .mem _), rfl,
      storedAndFetched_of_memRead ?_⟩
    exact (updateInPlace_mem_memRead (s.setPc (s.pc + 1)) incFlags).trans (incFlags_result _ _)
  case dcr =>
    refine ⟨_, ((dcrMemory s).1 (fetches_one hrun hop)).trans (exec_dcr .mem _), rfl,
      storedAndFetched_of_memRead ?_⟩
    exact (updateInPlace_mem_memRead (s.setPc (s.pc + 1)) decFlags).trans (decFlags_result _ _)

/-- Settles O51: loading copies the loaded form from address 0 into memory alone, or is refused by its length. -/
theorem imageIsCopiedFromAddressZero : Obligations.ImageIsCopiedFromAddressZero := by
  intro image form s hform
  rw [State.loadImage, padImage_eq hform]
  refine ⟨fun hfit => ?_, fun hlong => if_neg (Nat.not_le.mpr hlong)⟩
  have hfit' : 0 + form.length ≤ 65536 := by rwa [Nat.zero_add]
  rw [if_pos hfit]
  refine ⟨_, rfl, fun k hk => ?inside, fun x hx => ?outside, fun q => readReg_congr rfl q, rfl, rfl, rfl, rfl⟩
  case inside =>
    refine read_copyBytes_inside hfit' hk ?_
    rw [BitVec.toNat_ofNat, Nat.mod_eq_of_lt (by omega), Nat.zero_add]
  case outside => exact read_copyBytes_outside hfit' (.inr (by rwa [Nat.zero_add]))

end Sys2Proof
